-- ==== Sys2Proof/Word.lean ====
section
/-! DEFINITION. The word types of RRC: the widths of `00_scope.md` section 7 and `10_state.md` R20. -/

namespace Sys2Proof

/-- `u8`: one byte of a row's storage (`10_state.md` R21). -/
abbrev Byte := BitVec 8

/-- The contents of the sequencer state register `ST`, `ST_W` = 4 bits (`00_scope.md` R7). -/
abbrev StCode := BitVec 4

/-- `u16`: the 16-bit device identifier (`10_state.md` R27). -/
abbrev Ident := BitVec 16

end Sys2Proof
end

