-- ==== Sys2Proof/Config.lean ====
section
/-! DEFINITION. The parameters of RRC: those the spec fixes (`00_scope.md` R5, R7) as constants, those it leaves
open (R8) as the data type `Geometry`, whose values are exactly the admissible builds. -/

namespace Sys2Proof.Config

/-- `R_MIN`: the minimum repeat count the locator is given (R5). -/
def rMin : Nat := 5

/-- `L_FRAME`: the row length in bits the locator is given and VLEN checks again (R5). -/
def lFrame : Nat := 24

/-- `PAYLOAD_BYTES`: bytes of the selected row that form the payload (R5). -/
def payloadBytes : Nat := 4

/-- `MODEL`: the constant event field `model` (R5; `30_encoding.md` R82 asks for a string constant). -/
def model : String := "Roboguard"

/-- `HD_MAX`: the largest Hamming distance at which two rows are the same row (R7, decision D2). -/
def hdMax : Nat := 0

/-- The two length criteria `92_eei_decisions.md` D3 names. -/
inductive LenMode where
  /-- A candidate's bit-count equals L. -/
  | eq
  /-- A candidate's bit-count is at least L: described in D3, NOT this hardware. -/
  | ge
  deriving DecidableEq, Repr

/-- `LEN_MODE`: this hardware's criterion is `EQ` (R7, D3, U2). -/
def lenMode : LenMode := .eq

/-- The parameters left OPEN (R8): `NROWS_MAX` row slots of `ROW_BYTES` bytes, under R8's constraints.
The model takes them as an argument: State carries one `Geometry`, which no step changes (log entry 1). -/
structure Geometry where
  /-- `NROWS_MAX`. -/
  nrowsMax : Nat
  /-- `ROW_BYTES`. -/
  rowBytes : Nat
  /-- R8: `NROWS_MAX ≥ R_MIN`. -/
  rows_ok : rMin ≤ nrowsMax
  /-- R8: `ROW_BYTES ≥ PAYLOAD_BYTES`. -/
  bytes_ok : payloadBytes ≤ rowBytes
  deriving DecidableEq, Repr

/-- The build whose reset state `State.reset` is. DESIGN CHOICE (log entry 1): 16 rows of 4 bytes, enough for the
protocol's 8 repeats and for every vector of `95_test_vectors.md`. No statement rests on these two numbers. -/
def resetGeometry : Geometry := ⟨16, 4, by decide, by decide⟩

end Sys2Proof.Config
end

