-- ==== Sys2Proof/Syntax.lean ====
section
/-! DEFINITION. The syntax: RRC's operations (one constructor per row of `opcode_table.json`), the two formats
that encode them, and the moves of the environment. -/

namespace Sys2Proof

/-- The rows of `30_encoding.md` R83. No row has an operand field: every operation's operands are fixed (R76). -/
inductive Instr where
  /-- The host command START (`43_sequencer.md` R141). -/
  | start
  /-- The resting state IDLE, `ST = 0x0` (R142). -/
  | idle
  /-- LOCATE, `ST = 0x1` (`40_comparator_locator.md` R96). -/
  | locate
  /-- VLEN, `ST = 0x2` (`41_validator.md` R110). -/
  | vlen
  /-- VNZ, `ST = 0x3` (`41_validator.md` R112). -/
  | vnz
  /-- XFIELDS, `ST = 0x4` (`42_extractor.md` R120). -/
  | xfields
  /-- EMIT, `ST = 0x5` (`43_sequencer.md` R143). -/
  | emit
  /-- The terminal state T_SUCCESS, `ST = 0x8` (R144). -/
  | tSuccess
  /-- The terminal state T_ABORT, `ST = 0x9` (R145). -/
  | tAbort
  /-- The terminal state T_REJECT, `ST = 0xA` (R146). -/
  | tReject
  deriving DecidableEq, Repr

/-- An encoded operation, in one of the two formats that select one (`30_encoding.md` R70). The format is part of
the encoding: the same low bits mean START in a command word and LOCATE in `ST`. -/
inductive Code where
  /-- F-ST: the 4-bit value of `ST` (R76). -/
  | st (code : StCode)
  /-- F-CTRL: the data of a host write to `REG` register 0 (R77). The spec gives a write's data no width (bits above
  bit 0 are reserved and ignored), so the data is a natural number. -/
  | ctrl (data : Nat)
  deriving DecidableEq, Repr

/-- What can move next: RRC itself, or its environment (`00_scope.md` R9; `30_encoding.md` R81). -/
inductive Move where
  /-- The RRC agent takes its step (`STEP` of R81). -/
  | turn
  /-- Reset is applied (`70_reset_and_hazards.md` R190; `RESET`). -/
  | reset
  /-- The host writes `data` to `REG` register `num` (`10_state.md` R32). -/
  | writeReg (num data : Nat)
  /-- The producer writes `RB.n <- n` (`NROWS`). -/
  | setRows (n : Nat)
  /-- The producer writes `RB.bits[r] <- bits` (`ROW`). -/
  | setBits (r bits : Nat)
  /-- The producer's `MemWrite((r,k), 1, v)` (`20_memory.md` R57, R67; `ROW`). -/
  | setByte (r k : Nat) (v : Byte)
  deriving DecidableEq, Repr

end Sys2Proof
end

