-- ==== Sys2Proof/WellFormed.lean ====
section
/-! DEFINITION. The checks on syntax: which instructions, encodings and environment moves are well formed. -/

namespace Sys2Proof

/-- No instruction has an operand field (`30_encoding.md` R76), so there is nothing to check. -/
def Instr.wf : Instr → Bool
  | .start | .idle | .locate | .vlen | .vnz | .xfields | .emit | .tSuccess | .tAbort | .tReject => true

/-- A well-formed encoding: an `ST` code that is not one of the seven reserved codes of `30_encoding.md` R79 (c), or
a command word with bit 0 set (R77). -/
def Code.wf : Code → Bool
  | .st c => c.toNat ≤ 5 || (8 ≤ c.toNat && c.toNat ≤ 10)
  | .ctrl d => d.testBit 0

/-- A well-formed producer move names a location that exists (`20_memory.md` R50); the other moves have no
location. -/
def Move.wf (g : Config.Geometry) : Move → Bool
  | .turn | .reset | .writeReg _ _ | .setRows _ => true
  | .setBits r _ => r < g.nrowsMax
  | .setByte r k _ => r < g.nrowsMax && k < g.rowBytes

end Sys2Proof
end

