-- ==== Sys2Proof/Decode.lean ====
section
/-! DEFINITION. The codes of `30_encoding.md` R83, the decoder from an encoded operation to an instruction (total,
rejecting by name), and the encoder written from the same table. -/

namespace Sys2Proof

/-- `IDLE`, code `0x0` (`10_state.md` R24). -/
abbrev stIdle : StCode := 0x0#4
/-- `LOCATE`, code `0x1`. -/
abbrev stLocate : StCode := 0x1#4
/-- `VLEN`, code `0x2`. -/
abbrev stVlen : StCode := 0x2#4
/-- `VNZ`, code `0x3`. -/
abbrev stVnz : StCode := 0x3#4
/-- `XFIELDS`, code `0x4`. -/
abbrev stXfields : StCode := 0x4#4
/-- `EMIT`, code `0x5`. -/
abbrev stEmit : StCode := 0x5#4
/-- `T_SUCCESS`, code `0x8`. -/
abbrev stSuccess : StCode := 0x8#4
/-- `T_ABORT`, code `0x9`. -/
abbrev stAbort : StCode := 0x9#4
/-- `T_REJECT`, code `0xA`. -/
abbrev stReject : StCode := 0xA#4

/-- Why an encoding names no instruction. -/
inductive DecodeError where
  /-- A reserved `ST` code (`30_encoding.md` R79 c). -/
  | reservedCode (code : StCode)
  /-- A command word with bit 0 clear: no command (R77). -/
  | noCommand
  deriving DecidableEq, Repr

/-- The nine F-ST rows of R83, in the table's order. Every row's mask is `0xF`, so a row is its code. -/
def stRows : List (StCode × Instr) :=
  [(stIdle, .idle), (stLocate, .locate), (stVlen, .vlen), (stVnz, .vnz), (stXfields, .xfields), (stEmit, .emit),
   (stSuccess, .tSuccess), (stAbort, .tAbort), (stReject, .tReject)]

/-- The decoder of the 4-bit `ST` value (R83): one of the nine rows, or "reserved". -/
def decodeSt (c : StCode) : Except DecodeError Instr :=
  match stRows.find? (fun row => row.1 == c) with
  | some row => .ok row.2
  | none => .error (.reservedCode c)

/-- The decoder of a command word (R77): START when bit 0 is set, all other bits ignored. -/
def decodeCtrl (data : Nat) : Except DecodeError Instr :=
  if data.testBit 0 then .ok .start else .error .noCommand

/-- The decoder. -/
def decode : Code → Except DecodeError Instr
  | .st c => decodeSt c
  | .ctrl d => decodeCtrl d

/-- The encoder, from R83's columns "format" and "match". -/
def encode : Instr → Code
  | .start => .ctrl 0x1
  | .idle => .st stIdle
  | .locate => .st stLocate
  | .vlen => .st stVlen
  | .vnz => .st stVnz
  | .xfields => .st stXfields
  | .emit => .st stEmit
  | .tSuccess => .st stSuccess
  | .tAbort => .st stAbort
  | .tReject => .st stReject

/-- The encoding the host's table means by a word of `nbits` bits (log entry 5). The table gives START 1 bit (the
defined bit of a command word) and the `ST` rows 4 bits; the spec's programs write command words of 32 bits. In
whole bytes both widths are 8, and there the word is read as an `ST` code, the only encoding RRC itself decodes. -/
def tableCode (nbits w : Nat) : Option Code :=
  if nbits = 1 ∨ nbits = 32 then some (.ctrl w)
  else if (nbits = 4 ∨ nbits = 8) ∧ w < 16 then some (.st (BitVec.ofNat 4 w))
  else none

/-- The instruction the decoder reads from a table word; none where it refuses. -/
def decodeTableWord (nbits w : Nat) : Option Instr :=
  match tableCode nbits w with
  | some c => (decode c).toOption
  | none => none

end Sys2Proof
end

