-- ==== Sys2Proof/Machine/State.lean ====
section
/-! DEFINITION. The state of one RRC instance and its environment (`10_state.md` R20), the reasons a step can stop,
and the state right after reset (R41). -/

namespace Sys2Proof.Machine

/-- The Row Buffer (`10_state.md` R21): the row count, a bit-count per row slot, and the bytes of each slot,
addressed by the pair (row, byte) as `20_memory.md` R51 asks. Both arrays are sorted lists in canonical form
(`RowBuffer.Wf` of Machine/Ops.lean). -/
structure RowBuffer where
  /-- `RB.n`. -/
  n : Nat
  /-- `RB.bits`: (row, bit-count), rising rows. -/
  bits : List (Nat × Nat)
  /-- `RB.data`: (row, that row's (byte index, byte) cells), rising rows, rising byte indexes. -/
  data : List (Nat × List Host.Cell)
  deriving DecidableEq, Repr

/-- A Decoded Event, fields in the source's order (`30_encoding.md` R74). -/
structure Event where
  model : String
  id : Ident
  tamper : Bool
  alarm : Bool
  batteryOk : Bool
  deriving DecidableEq, Repr

/-- Why the machine stops with a fault. -/
inductive Fault where
  /-- Raised by VLEN, VNZ, XFIELDS when `SEL` is no row slot (`SEL ≥ NROWS_MAX`, which the invariant `Inv` rules
  out), and by a producer write to such a slot: the location does not exist (`20_memory.md` R50). Safe. -/
  | noSuchRow (r : Nat)
  /-- Raised by a producer write to a byte index `≥ ROW_BYTES`: the location does not exist (R50). Safe. -/
  | noSuchByte (r k : Nat)
  deriving DecidableEq, Repr

/-- Why a step is refused. -/
inductive Refusal where
  /-- Raised by no arm of this model: an instruction that has no meaning yet. Safe. -/
  | notModelled (mnemonic : String)
  /-- Raised by START when it would be accepted, and by LOCATE, over a buffer that breaks launch premise P-a or P-b:
  behaviour not specified, "a model should refuse such a launch" (`70_reset_and_hazards.md` R194, U4). Safe. -/
  | launchPremises
  /-- Raised by a producer write while `BUSY = 1`: "the producer has no such move in the model" (R195, `20_memory.md`
  R67, U3). Unsafe for a host that breaks the rule (log entry 6). -/
  | producerWriteWhileBusy
  /-- Raised by RRC's turn and by START with `ST` at a reserved code (`30_encoding.md` R79 c, U6). Safe. -/
  | reservedCode (code : StCode)
  deriving DecidableEq, Repr

/-- The state. The first nine fields are the spec's (`10_state.md` R20); the last two are the model's own. -/
structure State where
  /-- `ST`, the sequencer state register (R24). -/
  st : StCode
  /-- `FOUND` (R25). -/
  found : Bool
  /-- `SEL` (R26): a natural number below `NROWS_MAX`, which the register's `SEL_W` bits hold (`selW`, `selReg` of
  Machine/Flags.lean; log entry 3). -/
  sel : Nat
  /-- `EV_ID` (R27). -/
  evId : Ident
  /-- `EV_TAMPER` (R28). -/
  evTamper : Bool
  /-- `EV_ALARM` (R28). -/
  evAlarm : Bool
  /-- `EV_BATT_OK` (R28). -/
  evBattOk : Bool
  /-- `RB`, the Row Buffer (R21). -/
  rb : RowBuffer
  /-- `EVLOG`, the events the sink has received, oldest first (R30). -/
  evlog : List Event
  /-- The model's own: the build's open parameters, which no step changes (R8, R39; log entry 1). -/
  geom : Config.Geometry
  /-- The model's own: the moves still to come, oldest first; RRC steps when it is empty (log entry 2). -/
  inbox : List Move
  deriving DecidableEq, Repr

/-- The state after reset of the build `g` (R41), the Row Buffer with nothing listed (its contents are unspecified:
log entry 4), the sink's history empty, no move queued. -/
def State.resetOf (g : Config.Geometry) : State where
  st := stIdle
  found := false
  sel := 0
  evId := 0x0000#16
  evTamper := false
  evAlarm := false
  evBattOk := false
  rb := { n := 0, bits := [], data := [] }
  evlog := []
  geom := g
  inbox := []

/-- The state after reset. -/
def State.reset : State := State.resetOf Config.resetGeometry

end Sys2Proof.Machine
end

