-- ==== Sys2Proof/Machine/Ops.lean ====
section
/-! DEFINITION. The operations over the Row Buffer and the registers: canonical cell lists, the three reads of
`20_memory.md` R54, the producer's writes, the launch premises, `raise` (`60_exceptions.md` R168) and reset. -/

namespace Sys2Proof.Machine

/-! ### Cell lists: sorted by key, no entry equal to what an unlisted key reads as -/

/-- What the list `m` holds at key `q`, where an unlisted key reads as `d`. -/
def cellsGet {α : Type} (d : α) : List (Nat × α) → Nat → α
  | [], _ => d
  | (k, v) :: rest, q => if q = k then v else cellsGet d rest q

/-- The list with `x` at key `q`. Writing what an unlisted key reads as removes the entry. -/
def cellsSet {α : Type} [DecidableEq α] (d : α) : List (Nat × α) → Nat → α → List (Nat × α)
  | [], q, x => if x = d then [] else [(q, x)]
  | (k, v) :: rest, q, x =>
    if q < k then (if x = d then (k, v) :: rest else (q, x) :: (k, v) :: rest)
    else if q = k then (if x = d then rest else (q, x) :: rest)
    else (k, v) :: cellsSet d rest q x

/-- The canonical form: keys strictly rising, no entry that holds `d`. -/
abbrev CellsWf {α : Type} (d : α) (m : List (Nat × α)) : Prop :=
  m.Pairwise (fun a b => a.1 < b.1) ∧ ∀ e ∈ m, e.2 ≠ d

/-! ### The Row Buffer -/

/-- What a byte that nothing has written reads as: the spec leaves it unspecified after power-up (`10_state.md` R41,
U9). DESIGN CHOICE (log entry 4). -/
def unlistedByte : Byte := 0x00#8

/-- What a bit-count that nothing has written reads as. DESIGN CHOICE (log entry 4). -/
def unlistedBits : Nat := 0

/-- The cells of row slot `r`. -/
def RowBuffer.rowAt (rb : RowBuffer) (r : Nat) : List Host.Cell := cellsGet [] rb.data r

/-- `RB.data[r][k]` as stored. -/
def RowBuffer.byteAt (rb : RowBuffer) (r k : Nat) : Byte := cellsGet unlistedByte (rb.rowAt r) k

/-- `RB.bits[r]` as stored. -/
def RowBuffer.bitsAt (rb : RowBuffer) (r : Nat) : Nat := cellsGet unlistedBits rb.bits r

/-- `RB.n <- n`. -/
def RowBuffer.setRows (rb : RowBuffer) (n : Nat) : RowBuffer := { rb with n := n }

/-- `RB.bits[r] <- bits`. -/
def RowBuffer.setBits (rb : RowBuffer) (r bits : Nat) : RowBuffer :=
  { rb with bits := cellsSet unlistedBits rb.bits r bits }

/-- `RB.data[r][k] <- v`. -/
def RowBuffer.setByte (rb : RowBuffer) (r k : Nat) (v : Byte) : RowBuffer :=
  { rb with data := cellsSet [] rb.data r (cellsSet unlistedByte (rb.rowAt r) k v) }

/-- The memory's canonical form: both arrays and every row's cells are canonical cell lists. -/
abbrev RowBuffer.Wf (rb : RowBuffer) : Prop :=
  CellsWf unlistedBits rb.bits ∧ CellsWf [] rb.data ∧ ∀ e ∈ rb.data, CellsWf unlistedByte e.2

/-- `rowbit(r, k)`: bit `k` of row `r` in transmission order, most significant bit of a byte first
(`20_memory.md` R52). -/
def RowBuffer.rowBit (rb : RowBuffer) (r k : Nat) : Bool := (rb.byteAt r (k / 8)).getLsbD (7 - k % 8)

/-! ### The reads of `20_memory.md` R54, with the domain `00_scope.md` section 7 gives them -/

/-- `NRowsRead()`. -/
def nRowsRead (s : State) : Nat := s.rb.n

/-- The fault of an access to row slot `r`, if the slot does not exist (`20_memory.md` R50). -/
def missingRow (s : State) (r : Nat) : Option Fault :=
  if r < s.geom.nrowsMax then none else some (.noSuchRow r)

/-- The fault of an access to byte `k` of row slot `r`, if there is no such location (R50). -/
def missingByte (s : State) (r k : Nat) : Option Fault :=
  if r < s.geom.nrowsMax then (if k < s.geom.rowBytes then none else some (.noSuchByte r k)) else some (.noSuchRow r)

/-- `BitsRead(r)`: defined for a row slot that exists. -/
def bitsRead (s : State) (r : Nat) : Except Fault Nat :=
  match missingRow s r with
  | none => .ok (s.rb.bitsAt r)
  | some f => .error f

/-- `MemRead((r,k), 1)`: defined for `r < NROWS_MAX`, `k < ROW_BYTES`. -/
def memRead (s : State) (r k : Nat) : Except Fault Byte :=
  match missingByte s r k with
  | none => .ok (s.rb.byteAt r k)
  | some f => .error f

/-! ### Launch premises, failures, reset -/

/-- Launch premises P-a and P-b (`70_reset_and_hazards.md` R194): `RB.n ≤ NROWS_MAX`, and
`RB.bits[r] ≤ 8 × ROW_BYTES` for every row. -/
def launchOk (g : Config.Geometry) (rb : RowBuffer) : Bool :=
  decide (rb.n ≤ g.nrowsMax) && (List.range rb.n).all fun r => decide (rb.bitsAt r ≤ 8 * g.rowBytes)

/-- The two failure classes (`60_exceptions.md` R161, R162). -/
inductive Failure where
  | abortLength
  | sanityFail
  deriving DecidableEq, Repr

/-- The terminal state of a failure class (R168). -/
def failureCode : Failure → StCode
  | .abortLength => stAbort
  | .sanityFail => stReject

/-- Failure entry (R168): the single write of `ST`; nothing is saved and nothing else changes. There is no
return-from-failure operation (R170): an accepted START leaves the terminal state. -/
def raise (f : Failure) (s : State) : State := { s with st := failureCode f }

/-- Reset (`70_reset_and_hazards.md` R190): every register of RRC takes its value of `10_state.md` R41; the Row
Buffer and the sink are untouched (R192). -/
def applyReset (s : State) : State :=
  { s with st := stIdle, found := false, sel := 0, evId := 0x0000#16, evTamper := false, evAlarm := false,
           evBattOk := false }

end Sys2Proof.Machine
end

