-- ==== Sys2Proof/Machine/Operands.lean ====
section
/-! DEFINITION. The operands of the operations: the selected row and its payload view (`10_state.md` R42), and the
bit fields of the payload (`30_encoding.md` R72, R73). -/

namespace Sys2Proof.Machine

/-- The Decoded Payload: four bytes read positionally (`30_encoding.md` R72). -/
structure Payload where
  b0 : Byte
  b1 : Byte
  b2 : Byte
  b3 : Byte
  deriving DecidableEq, Repr

/-- `pay(r, 0..3)`: a view of row `r`'s storage, not a copy (`10_state.md` R42). Byte 3 is read literally
(`41_validator.md` R113). All four bytes exist in every row slot, since `ROW_BYTES ≥ 4` (`20_memory.md` R56). -/
def RowBuffer.payload (rb : RowBuffer) (r : Nat) : Payload where
  b0 := rb.byteAt r 0
  b1 := rb.byteAt r 1
  b2 := rb.byteAt r 2
  b3 := rb.byteAt r 3

/-- The payload as the 32-bit word `P = b0 ++ b1 ++ b2 ++ b3` (R72). -/
def Payload.word (p : Payload) : BitVec 32 := p.b0 ++ p.b1 ++ p.b2 ++ p.b3

/-- All 32 bits of the payload are 0: `(b0 | b1 | b2 | b3) == 0x00` (`41_validator.md` R112). -/
def Payload.isZero (p : Payload) : Bool := (p.b0 ||| p.b1 ||| p.b2 ||| p.b3) == 0x00#8

/-- The operand "row `SEL`" of VLEN, VNZ and XFIELDS: `f` goes on with the row where the slot exists. A slot that does
not exist faults; `SEL` is below `NROWS_MAX` in every state the invariant `Inv` holds of (`10_state.md` R26). -/
def withSelRow (s : State) (f : Nat → Host.Outcome State Fault Refusal) : Host.Outcome State Fault Refusal :=
  match missingRow s s.sel with
  | none => f s.sel
  | some e => .fault e

end Sys2Proof.Machine
end

