-- ==== Sys2Proof/Machine/Comparator.lean ====
section
/-! DEFINITION. The comparator, the repeat counter, the vote and the locator (`40_comparator_locator.md`), for a
general minimum repeat count R ≥ 1 and expected length L, and the operation LOCATE, which is their instance at
`R_MIN` and `L_FRAME`. -/

namespace Sys2Proof.Machine

/-- HDIST (R90): the Hamming distance of rows `a` and `b` over their first `n` bits. -/
def hd (rb : RowBuffer) (a b n : Nat) : Nat :=
  (List.range n).countP fun k => rb.rowBit a k != rb.rowBit b k

/-- CMPROW (R91): equal bit-counts, and Hamming distance at most `HD_MAX` over that many bits. -/
def rowEq (rb : RowBuffer) (a b : Nat) : Bool :=
  rb.bitsAt a == rb.bitsAt b && decide (hd rb a b (rb.bitsAt a) ≤ Config.hdMax)

/-- CNTREP (R93): how many rows of the whole buffer equal row `i`, row `i` included. -/
def reps (rb : RowBuffer) (i : Nat) : Nat := (List.range rb.n).countP fun j => rowEq rb i j

/-- VOTE (R94). -/
def vote (c R : Nat) : Bool := decide (R ≤ c)

/-- The length criterion of a mode (R95, D3). -/
def lengthOk (mode : Config.LenMode) (bits L : Nat) : Bool :=
  match mode with
  | .eq => bits == L
  | .ge => decide (L ≤ bits)

/-- A row qualifies (R95): it has the expected length and passes the vote. -/
def qualifies (rb : RowBuffer) (i R L : Nat) : Bool :=
  lengthOk Config.lenMode (rb.bitsAt i) L && vote (reps rb i) R

/-- `locate(R, L)` (R96): the smallest qualifying row index, or none for `notfound`. It is defined only for `R ≥ 1`
(R6, R100 i, U5), which the proof argument says. -/
def locate (rb : RowBuffer) (R : Nat) (_hR : 1 ≤ R) (L : Nat) : Option Nat :=
  (List.range rb.n).find? fun i => qualifies rb i R L

/-- RRC's locator: R = `R_MIN`, L = `L_FRAME` (R6). -/
def locateFrame (rb : RowBuffer) : Option Nat := locate rb Config.rMin (by decide) Config.lFrame

/-- The inner loop of R104's reference algorithm, from row `J` with `fuel` rows left and the count `CNT`. -/
def countLoop (rb : RowBuffer) (I : Nat) : (fuel J CNT : Nat) → Nat
  | 0, _, CNT => CNT
  | fuel + 1, J, CNT => countLoop rb I fuel (J + 1) (if rowEq rb I J then CNT + 1 else CNT)

/-- The outer loop of R104's reference algorithm, from row `I` with `fuel` rows left. -/
def locateLoop (rb : RowBuffer) (R L : Nat) : (fuel I : Nat) → Option Nat
  | 0, _ => none
  | fuel + 1, I =>
    if rb.bitsAt I = L then
      if countLoop rb I rb.n 0 0 ≥ R then some I else locateLoop rb R L fuel (I + 1)
    else locateLoop rb R L fuel (I + 1)

/-- LOCATE_REF (R104): the reference algorithm, its working variables `I`, `J`, `CNT` arguments of the loops. -/
def locateRef (rb : RowBuffer) (R L : Nat) : Option Nat := locateLoop rb R L rb.n 0

/-- The forward-only repeat count of R98: rows from `i` on. -/
def repsFwd (rb : RowBuffer) (i : Nat) : Nat :=
  (List.range rb.n).countP fun j => decide (i ≤ j) && rowEq rb i j

/-- The locator that counts only forward (R98). -/
def locateFwd (rb : RowBuffer) (R L : Nat) : Option Nat :=
  (List.range rb.n).find? fun i => lengthOk Config.lenMode (rb.bitsAt i) L && vote (repsFwd rb i) R

/-- LOCATE (R96), one atomic step. A buffer that breaks a launch premise has no specified behaviour and is refused
(`70_reset_and_hazards.md` R194); START refuses it before, so no attempt gets here with one. -/
def execLocate (s : State) : Host.Outcome State Fault Refusal :=
  if launchOk s.geom s.rb then
    match locateFrame s.rb with
    | some i0 => .next { s with sel := i0, found := true, st := stVlen }
    | none => .next (raise .abortLength s)
  else .refused .launchPremises

end Sys2Proof.Machine
end

