-- ==== Sys2Proof/Machine/Extractor.lean ====
section
/-! DEFINITION. The bit-field extractor: the sub-operations and XFIELDS (`42_extractor.md`). -/

namespace Sys2Proof.Machine

/-- XID (R121): `(b1 << 8) | b2`, a 16-bit value, byte 1 the high-order byte. -/
def xid (b1 b2 : Byte) : Ident := (b1.setWidth 16 <<< 8) ||| b2.setWidth 16

/-- XTAMPER (R122): `(b0 & 0x80) != 0`. -/
def xtamper (b0 : Byte) : Bool := (b0 &&& 0x80#8) != 0#8

/-- XBATT (R123), the one inverted field: `(b0 & 0x40) == 0`. -/
def xbatt (b0 : Byte) : Bool := (b0 &&& 0x40#8) == 0#8

/-- XALARM (R124): `(b0 & 0x20) != 0`. -/
def xalarm (b0 : Byte) : Bool := (b0 &&& 0x20#8) != 0#8

/-- XFIELDS (R120): the four event registers in one step. -/
def execXfields (s : State) : Host.Outcome State Fault Refusal :=
  withSelRow s fun r =>
    let p := s.rb.payload r
    .next { s with evId := xid p.b1 p.b2, evTamper := xtamper p.b0, evBattOk := xbatt p.b0, evAlarm := xalarm p.b0,
                   st := stEmit }

end Sys2Proof.Machine
end

