-- ==== Sys2Proof/Machine/Flags.lean ====
section
/-! DEFINITION. The derived status (`10_state.md` R31), the host's view of the registers (R32 to R36), the event port
(`30_encoding.md` R74, `43_sequencer.md` R143) and the `done` level (`60_exceptions.md` R165): functions of the
state, none of them state. -/

namespace Sys2Proof.Machine

/-- `BUSY` of an `ST` code: LOCATE, VLEN, VNZ, XFIELDS or EMIT (R31). -/
def isBusy (c : StCode) : Bool :=
  c == stLocate || c == stVlen || c == stVnz || c == stXfields || c == stEmit

/-- `DONE` of an `ST` code: one of the three terminal states (R31). -/
def isDone (c : StCode) : Bool := c == stSuccess || c == stAbort || c == stReject

/-- A resting state, where a START is accepted: IDLE or a terminal state (`43_sequencer.md` R141). -/
def isResting (c : StCode) : Bool := c == stIdle || isDone c

/-- The outcome codes (`30_encoding.md` R75). -/
inductive Result where
  | none
  | success
  | abortLength
  | failSanity
  deriving DecidableEq, Repr

/-- The 2-bit code of a result (R75). -/
def resultCode : Result → BitVec 2
  | .none => 0#2
  | .success => 1#2
  | .abortLength => 2#2
  | .failSanity => 3#2

/-- `RESULT`, a function of `ST` (`10_state.md` R31). -/
def resultOf (c : StCode) : Result :=
  if c = stSuccess then .success else if c = stAbort then .abortLength else if c = stReject then .failSanity else .none

/-- The `STATUS` register (R34): `RESULT` in 9:8, 0 in 7, `FOUND`, `DONE`, `BUSY` in 6, 5, 4, `ST` in 3:0. -/
def statusReg (s : State) : BitVec 10 :=
  resultCode (resultOf s.st) ++ 0#1 ++ BitVec.ofBool s.found ++ BitVec.ofBool (isDone s.st)
    ++ BitVec.ofBool (isBusy s.st) ++ s.st

/-- The `EV_FLAGS` register (R35): tamper, alarm, battery_ok from high to low. -/
def evFlagsReg (s : State) : BitVec 3 :=
  BitVec.ofBool s.evTamper ++ BitVec.ofBool s.evAlarm ++ BitVec.ofBool s.evBattOk

/-- The `CFG` register, a constant (R36): `PAYLOAD_BYTES`, `L_FRAME`, `R_MIN` from high to low, 8 bits each. -/
def cfgReg : BitVec 24 :=
  BitVec.ofNat 8 Config.payloadBytes ++ BitVec.ofNat 8 Config.lFrame ++ BitVec.ofNat 8 Config.rMin

/-- `SEL_W`, the width of `SEL`: the smallest `w` with `2^w ≥ NROWS_MAX` (`00_scope.md` R8), found by search from 0
up; `w = NROWS_MAX` always meets the condition. -/
def selW (g : Config.Geometry) : Nat :=
  ((List.range g.nrowsMax).find? fun w => decide (g.nrowsMax ≤ 2 ^ w)).getD g.nrowsMax

/-- The `SEL` register as its `SEL_W` bits (`10_state.md` R26, R32). Every value the register holds is below
`NROWS_MAX` and so fits (log entry 3). -/
def selReg (s : State) : BitVec (selW s.geom) := BitVec.ofNat (selW s.geom) s.sel

/-- A host read of `REG` register `num` (R32). It is a function of the state: a read has no side effect. `CTRL`
reads as 0 (R33), a register that does not exist reads as 0. -/
def readReg (s : State) (num : Nat) : Nat :=
  match num with
  | 0 => 0
  | 1 => (statusReg s).toNat
  | 2 => (selReg s).toNat
  | 3 => s.evId.toNat
  | 4 => (evFlagsReg s).toNat
  | 5 => cfgReg.toNat
  | _ => 0

/-- The Decoded Event the event registers hold (`42_extractor.md` R129). `model` is not a register: it is the
constant `MODEL` (XMODEL, R125). -/
def eventOf (s : State) : Event :=
  { model := Config.model, id := s.evId, tamper := s.evTamper, alarm := s.evAlarm, batteryOk := s.evBattOk }

/-- `ev_data`, the 19-bit data word of an event on the event port (`30_encoding.md` R74). -/
def eventData (e : Event) : BitVec 19 :=
  e.id ++ BitVec.ofBool e.tamper ++ BitVec.ofBool e.alarm ++ BitVec.ofBool e.batteryOk

/-- The coming step is RRC's turn: nothing is queued, or its turn is the oldest queued move (log entry 2). -/
def rrcMoves (s : State) : Bool :=
  match s.inbox with
  | [] | .turn :: _ => true
  | _ :: _ => false

/-- `ev_valid`: 1 for the one step EMIT takes and only then (`43_sequencer.md` R143, `70_reset_and_hazards.md` R200). The
port is a function of the state a step begins in, so it is valid where the coming step is RRC's turn with `ST` at EMIT,
and not where that step is a reset or a host's write. DESIGN CHOICE (log entry 22). -/
def evValid (s : State) : Bool := rrcMoves s && s.st == stEmit

/-- `ev_data` as the port shows it: during the EMIT step the packed record (R143). What the port shows while
`ev_valid = 0` the spec leaves open; the model shows the packed event registers then too. DESIGN CHOICE (log entry
21). -/
def evData (s : State) : BitVec 19 := eventData (eventOf s)

/-- The `done` level RRC raises, equal to `DONE` (`60_exceptions.md` R165). -/
def doneLevel (s : State) : Bool := isDone s.st

/-- The byte form of the constant `MODEL` (`30_encoding.md` R82; general knowledge G1: ASCII). -/
def modelBytes : List Byte := Config.model.toList.map fun c => BitVec.ofNat 8 c.toNat

end Sys2Proof.Machine
end

