-- ==== Sys2Proof/Machine/Sequencer.lean ====
section
/-! DEFINITION. START, EMIT and the resting states, and the whole attempt as one function (`43_sequencer.md`). -/

namespace Sys2Proof.Machine

/-- START (R141). While busy it has no effect (R153). Accepted, it clears `FOUND` and begins an attempt; over a
buffer that breaks a launch premise it is refused (`70_reset_and_hazards.md` R194). With `ST` at a reserved code the
hardware's behaviour is not specified and the model refuses (`30_encoding.md` R79 c). -/
def execStart (s : State) : Host.Outcome State Fault Refusal :=
  if isBusy s.st then .next s
  else if isResting s.st then
    if launchOk s.geom s.rb then .next { s with found := false, st := stLocate } else .refused .launchPremises
  else .refused (.reservedCode s.st)

/-- RRC's turn in a resting state: it has no step there, it waits and all state survives (R147;
`60_exceptions.md` R175). -/
def rest (s : State) : Host.Outcome State Fault Refusal := .next s

/-- IDLE (R142). -/
def execIdle (s : State) : Host.Outcome State Fault Refusal := rest s

/-- EMIT (R143): `EVLOG` gains the event the event registers hold; the sink cannot refuse it. -/
def execEmit (s : State) : Host.Outcome State Fault Refusal :=
  .next { s with evlog := s.evlog ++ [eventOf s], st := stSuccess }

/-- T_SUCCESS (R144). -/
def execTSuccess (s : State) : Host.Outcome State Fault Refusal := rest s

/-- T_ABORT (R145). -/
def execTAbort (s : State) : Host.Outcome State Fault Refusal := rest s

/-- T_REJECT (R146). -/
def execTReject (s : State) : Host.Outcome State Fault Refusal := rest s

/-- The event a payload decodes to (`42_extractor.md` R129; `43_sequencer.md` R149). -/
def payloadEvent (p : Payload) : Event :=
  { model := Config.model, id := xid p.b1 p.b2, tamper := xtamper p.b0, alarm := xalarm p.b0, batteryOk := xbatt p.b0 }

/-- The outcomes of an attempt, a closed tagged type (R149; `60_exceptions.md` R160). -/
inductive AttemptOutcome where
  | abortLength
  | sanityFail
  | success (e : Event)
  deriving DecidableEq, Repr

/-- `decode(RB)` (R149): the whole attempt as one function of the Row Buffer. -/
def attempt (rb : RowBuffer) : AttemptOutcome :=
  match locateFrame rb with
  | none => .abortLength
  | some i =>
    if rb.bitsAt i ≠ Config.lFrame then .abortLength
    else if (rb.payload i).isZero then .sanityFail
    else .success (payloadEvent (rb.payload i))

end Sys2Proof.Machine
end

