-- ==== Sys2Proof/Machine/Validator.lean ====
section
/-! DEFINITION. The frame validator: VLEN and VNZ (`41_validator.md`). -/

namespace Sys2Proof.Machine

/-- VLEN (R110): the selected row's bit-count must be `L_FRAME`. The Fail edge is kept although `LEN_MODE = EQ` makes
it dead (R111). -/
def execVlen (s : State) : Host.Outcome State Fault Refusal :=
  withSelRow s fun r =>
    if s.rb.bitsAt r = Config.lFrame then .next { s with st := stVnz } else .next (raise .abortLength s)

/-- VNZ (R112): the four payload bytes of the selected row, byte 3 read literally (R113), must not all be zero. -/
def execVnz (s : State) : Host.Outcome State Fault Refusal :=
  withSelRow s fun r =>
    if (s.rb.payload r).isZero then .next (raise .sanityFail s) else .next { s with st := stXfields }

end Sys2Proof.Machine
end

