-- ==== Sys2Proof/Machine/Dispatch.lean ====
section
/-! DEFINITION. The dispatch of each instruction to its meaning, one arm per constructor of Instr. -/

namespace Sys2Proof.Machine

def exec (i : Instr) (s : State) : Host.Outcome State Fault Refusal :=
  match i with
  | .start => Sys2Proof.Machine.execStart s
  | .idle => Sys2Proof.Machine.execIdle s
  | .locate => Sys2Proof.Machine.execLocate s
  | .vlen => Sys2Proof.Machine.execVlen s
  | .vnz => Sys2Proof.Machine.execVnz s
  | .xfields => Sys2Proof.Machine.execXfields s
  | .emit => Sys2Proof.Machine.execEmit s
  | .tSuccess => Sys2Proof.Machine.execTSuccess s
  | .tAbort => Sys2Proof.Machine.execTAbort s
  | .tReject => Sys2Proof.Machine.execTReject s

end Sys2Proof.Machine
end

