-- ==== Sys2Proof/Machine/Environment.lean ====
section
/-! DEFINITION. Who moves next and what the move does: RRC's turn, the host's register writes, the producer's writes,
reset (`00_scope.md` R9, `10_state.md` R32, `20_memory.md` R67, `70_reset_and_hazards.md` R190). -/

namespace Sys2Proof.Machine

/-- RRC's turn: the operation that `ST` names (`00_scope.md` section 7 "A step"). A reserved code is refused
(`30_encoding.md` R79 c). -/
def rrcTurn (s : State) : Host.Outcome State Fault Refusal :=
  match decode (.st s.st) with
  | .ok i => exec i s
  | .error _ => .refused (.reservedCode s.st)

/-- A host write to `REG` (`10_state.md` R32, R33): to `CTRL`, the command the data holds, if any; to a read-only
register or one that does not exist, ignored. -/
def writeReg (num data : Nat) (s : State) : Host.Outcome State Fault Refusal :=
  if num = 0 then
    match decode (.ctrl data) with
    | .ok i => exec i s
    | .error _ => .next s
  else .next s

/-- A producer write that leaves the Row Buffer `rb'`: only while `BUSY = 0` (`20_memory.md` R67,
`70_reset_and_hazards.md` R195), and only to a location that exists (R50). Any row count can be written: one beyond
`NROWS_MAX` breaks launch premise P-a, and START refuses it (R194). -/
def producerWrite (missing : Option Fault) (rb' : RowBuffer) (s : State) : Host.Outcome State Fault Refusal :=
  if isBusy s.st then .refused .producerWriteWhileBusy
  else
    match missing with
    | none => .next { s with rb := rb' }
    | some f => .fault f

/-- One move, atomic. -/
def applyMove (m : Move) (s : State) : Host.Outcome State Fault Refusal :=
  match m with
  | .turn => rrcTurn s
  | .reset => .next (applyReset s)
  | .writeReg num data => writeReg num data s
  | .setRows n => producerWrite none (s.rb.setRows n) s
  | .setBits r bits => producerWrite (missingRow s r) (s.rb.setBits r bits) s
  | .setByte r k v => producerWrite (missingByte s r k) (s.rb.setByte r k v) s

/-- Who moves next: the oldest queued move, taken off the queue; RRC where none is queued (log entry 2; a busy RRC
eventually takes its step, `70_reset_and_hazards.md` R201). -/
def takeTurn (s : State) : Host.Outcome State Fault Refusal :=
  match s.inbox with
  | [] => rrcTurn s
  | m :: later => applyMove m { s with inbox := later }

/-- The state with an encoded operation where the next step takes it from: an `ST` code in `ST` with RRC to move, a
command word as the oldest queued host write to `CTRL`. -/
def placeCode (s : State) : Code → State
  | .st c => { s with st := c, inbox := [] }
  | .ctrl d => { s with inbox := .writeReg 0 d :: s.inbox }

/-- `placeCode` of the encoding a table word of `nbits` bits means; a word that means none leaves the state. -/
def placeTableWord (s : State) (nbits w : Nat) : State :=
  match tableCode nbits w with
  | some c => placeCode s c
  | none => s

end Sys2Proof.Machine
end

