-- ==== Sys2Proof/Machine/Step.lean ====
section
/-! DEFINITION. One step of the machine, and the state in which the next step runs a given table word. -/

namespace Sys2Proof.Machine

/-- One step: one move of the environment or one step of RRC. -/
def step (s : State) : Host.Outcome State Fault Refusal := takeTurn s

/-- The state whose next step runs the instruction with the table bits `w` (log entries 2 and 5). -/
def State.withFetchWord (s : State) (nbits w : Nat) : State := placeTableWord s nbits w

end Sys2Proof.Machine
end

