-- ==== Sys2Proof/Machine/Trace.lean ====
section
/-! DEFINITION. The optional trace port (`60_exceptions.md` R178): a function of the state changes, with no effect on
any state. -/

namespace Sys2Proof.Machine

/-- What the trace port reports at a decision point. -/
inductive TracePoint where
  | entry
  | rowFound (sel : Nat)
  | rowNotFound
  | lengthCheck (pass : Bool) (bits : Nat)
  | sanityCheck (pass : Bool)
  | fieldValues (id : Ident) (tamper alarm battOk : Bool)
  deriving DecidableEq, Repr

/-- The report when instruction `i` takes state `s` to state `t`: at an accepted START and after LOCATE, VLEN, VNZ
and XFIELDS; nothing elsewhere. -/
def traceOf (i : Instr) (s t : State) : Option TracePoint :=
  match i with
  | .start => if isBusy s.st then none else some .entry
  | .locate => some (if t.st == stVlen then .rowFound t.sel else .rowNotFound)
  | .vlen => some (.lengthCheck (t.st == stVnz) (s.rb.bitsAt s.sel))
  | .vnz => some (.sanityCheck (t.st == stXfields))
  | .xfields => some (.fieldValues t.evId t.evTamper t.evAlarm t.evBattOk)
  | .idle | .emit | .tSuccess | .tAbort | .tReject => none

end Sys2Proof.Machine
end

