-- ==== Sys2Proof/Safety.lean ====
section
/-! DEFINITION. What holds of RRC between steps: the invariant of the sequencer (`43_sequencer.md` R147,
`40_comparator_locator.md` R97), in the terms the statements use. -/

namespace Sys2Proof.Machine

/-- The locator of the current attempt has run, over a legal buffer, and chosen row `SEL` (R96, R97). -/
def RowHeld (s : State) : Prop :=
  launchOk s.geom s.rb = true ∧ s.found = true ∧ locateFrame s.rb = some s.sel

/-- What holds when `ST` names the operation `i`, before it is performed. -/
def PhaseInv : Instr → State → Prop
  | .start, _ => False
  | .idle, s => s.found = false
  | .locate, s => s.found = false ∧ launchOk s.geom s.rb = true
  | .vlen, s | .vnz, s => RowHeld s
  | .xfields, s => RowHeld s ∧ (s.rb.payload s.sel).isZero = false
  | .emit, s => RowHeld s ∧ (s.rb.payload s.sel).isZero = false ∧ eventOf s = payloadEvent (s.rb.payload s.sel)
  | .tSuccess, s => s.found = true ∧ s.evlog.getLast? = some (eventOf s)
  | .tAbort, s => s.found = false
  | .tReject, s => s.found = true

/-- The machine's invariant: the Row Buffer is in canonical form, `SEL` names a row slot that exists
(`10_state.md` R26), and `ST` holds one of the nine codes, with what that operation rests on. -/
structure Inv (s : State) : Prop where
  mem : s.rb.Wf
  sel : s.sel < s.geom.nrowsMax
  phase : ∃ i, decodeSt s.st = .ok i ∧ PhaseInv i s

/-- One of the resting states: IDLE or a terminal state, `BUSY = 0` (`43_sequencer.md` R141, R147). -/
abbrev Resting (c : StCode) : Prop := c = stIdle ∨ c = stSuccess ∨ c = stAbort ∨ c = stReject

/-- The launch premises P-a and P-b in the spec's words (`70_reset_and_hazards.md` R194). -/
def LaunchPremises (s : State) : Prop :=
  s.rb.n ≤ s.geom.nrowsMax ∧ ∀ r < s.rb.n, s.rb.bitsAt r ≤ 8 * s.geom.rowBytes

/-- Row `i` is the smallest row index that qualifies for RRC's locator (`40_comparator_locator.md` R96). -/
def FirstQualifying (rb : RowBuffer) (i : Nat) : Prop :=
  i < rb.n ∧ qualifies rb i Config.rMin Config.lFrame = true ∧
  ∀ j < i, qualifies rb j Config.rMin Config.lFrame = false

/-- At least five rows of the buffer, row `i` among them, are 24 bits long and equal to row `i` (R97). -/
def FiveEqualFrames (rb : RowBuffer) (i : Nat) : Prop :=
  ∃ rows : List Nat, rows.Nodup ∧ 5 ≤ rows.length ∧ i ∈ rows ∧
    ∀ j ∈ rows, j < rb.n ∧ rowEq rb i j = true ∧ rb.bitsAt j = 24

/-- The rows of the transition table of `43_sequencer.md` R147 whose agent is RRC. -/
inductive RrcTransition (s : State) : State → Prop where
  | resting (h : Resting s.st) : RrcTransition s s
  | found (i0 : Nat) (h : s.st = stLocate) (hq : FirstQualifying s.rb i0) :
    RrcTransition s { s with sel := i0, found := true, st := stVlen }
  | notFound (h : s.st = stLocate) (hq : ∀ i < s.rb.n, qualifies s.rb i Config.rMin Config.lFrame = false) :
    RrcTransition s { s with st := stAbort }
  | lengthPass (h : s.st = stVlen) (hl : s.rb.bitsAt s.sel = 24) : RrcTransition s { s with st := stVnz }
  | lengthFail (h : s.st = stVlen) (hl : s.rb.bitsAt s.sel ≠ 24) : RrcTransition s { s with st := stAbort }
  | nonZero (h : s.st = stVnz) (hz : ∃ k < 4, s.rb.byteAt s.sel k ≠ 0#8) : RrcTransition s { s with st := stXfields }
  | allZero (h : s.st = stVnz) (hz : ∀ k < 4, s.rb.byteAt s.sel k = 0#8) : RrcTransition s { s with st := stReject }
  | fields (h : s.st = stXfields) :
    RrcTransition s { s with evId := s.rb.byteAt s.sel 1 ++ s.rb.byteAt s.sel 2,
                             evTamper := (s.rb.byteAt s.sel 0).getLsbD 7, evAlarm := (s.rb.byteAt s.sel 0).getLsbD 5,
                             evBattOk := !(s.rb.byteAt s.sel 0).getLsbD 6, st := stEmit }
  | emitted (h : s.st = stEmit) :
    RrcTransition s { s with evlog := s.evlog ++ [⟨"Roboguard", s.evId, s.evTamper, s.evAlarm, s.evBattOk⟩],
                             st := stSuccess }

/-- The rows of two buffers have the same content: equal row counts, equal bit-counts, equal meaningful bits. Trailing
bits and slots beyond `RB.n` may differ (`10_state.md` R22). -/
def SameContent (rb rb' : RowBuffer) : Prop :=
  rb.n = rb'.n ∧ ∀ r < rb.n, rb.bitsAt r = rb'.bitsAt r ∧ ∀ k < rb.bitsAt r, rb.rowBit r k = rb'.rowBit r k

/-- Two buffers agree in everything an attempt can depend on in a build `g` (`43_sequencer.md` R150): the row count,
and for the rows below it the bit-counts and all stored bytes, trailing bits included. Slots at or beyond `RB.n` may
differ. -/
def SameRows (g : Config.Geometry) (rb rb' : RowBuffer) : Prop :=
  rb'.n = rb.n ∧ ∀ r < rb.n, rb'.bitsAt r = rb.bitsAt r ∧ ∀ k < g.rowBytes, rb'.byteAt r k = rb.byteAt r k

/-- `t` is where an attempt over the buffer of `s`, begun by a START that `s` accepts, comes to rest, as
`43_sequencer.md` R149 says, with `FOUND` and `SEL` as R144 to R146 say: 1 and the representative row after a success
or a sanity failure; after an abort, which under `LEN_MODE = EQ` is always the locator's (`41_validator.md` R111), 0
and the value `SEL` had. -/
def AttemptEnds (s t : State) : Prop :=
  t.rb = s.rb ∧
  match attempt s.rb with
  | .abortLength => t.st = stAbort ∧ t.evlog = s.evlog ∧ t.found = false ∧ t.sel = s.sel
  | .sanityFail => t.st = stReject ∧ t.evlog = s.evlog ∧ t.found = true ∧ locateFrame s.rb = some t.sel
  | .success e =>
    t.st = stSuccess ∧ t.evlog = s.evlog ++ [e] ∧ t.found = true ∧ locateFrame s.rb = some t.sel ∧
    (t.evId, t.evTamper, t.evAlarm, t.evBattOk) = (e.id, e.tamper, e.alarm, e.batteryOk)

end Sys2Proof.Machine
end

