-- ==== Sys2Proof/Certificates/Slice0/Obligations.lean ====
section
/-! DEFINITION. The statements for the provers, each a Prop from the spec's rules. OBLIGATIONS.json lists them. -/

open Sys2Proof Sys2Proof.Machine
open Host.Outcome (next fault refused)

/-! ### Encoding and the step -/

/-- `30_encoding.md` R83's decoder sentence with R79 (c): the nine codes name their rows, the other seven are
reserved. -/
def Obligations.StCodesDecodeAsTheTable : Prop :=
  decodeSt 0x0#4 = .ok .idle ∧ decodeSt 0x1#4 = .ok .locate ∧ decodeSt 0x2#4 = .ok .vlen ∧
  decodeSt 0x3#4 = .ok .vnz ∧ decodeSt 0x4#4 = .ok .xfields ∧ decodeSt 0x5#4 = .ok .emit ∧
  decodeSt 0x8#4 = .ok .tSuccess ∧ decodeSt 0x9#4 = .ok .tAbort ∧ decodeSt 0xA#4 = .ok .tReject ∧
  ∀ c ∈ [0x6#4, 0x7#4, 0xB#4, 0xC#4, 0xD#4, 0xE#4, 0xF#4], decodeSt c = .error (.reservedCode c)

/-- Decoding an instruction's encoding gives it back, and an `ST` code that decodes is the encoding of what it decodes
to. -/
def Obligations.DecodeEncodeRoundTrip : Prop :=
  (∀ i : Instr, i.wf = true → (encode i).wf = true ∧ decode (encode i) = .ok i) ∧
  (∀ (c : StCode) (i : Instr), decode (.st c) = .ok i → encode i = .st c) ∧
  (∀ w : Code, w.wf = true ↔ ∃ i, decode w = .ok i)

/-- A step in which RRC is to move performs the operation `ST` names (`00_scope.md` section 7 "A step"). Two points are
the model's choice: that RRC is to move when the queue is empty (log entry 2), and that a reserved code is refused
(`30_encoding.md` R79 c leaves a model to refuse it or to have no such state; log entry 8). -/
def Obligations.StepRunsTheOperationStNames : Prop :=
  ∀ s : State, s.inbox = [] →
    (∀ i, decodeSt s.st = .ok i → step s = exec i s) ∧
    (∀ e, decodeSt s.st = .error e → step s = refused (.reservedCode s.st))

/-- A step with moves queued performs the oldest, off the queue: RRC's turn performs the operation `ST` names, a host
write to `CTRL` with bit 0 set performs START. The queue is the model's own (log entry 2). -/
def Obligations.StepRunsTheOldestQueuedMove : Prop :=
  ∀ (s : State) (m : Move) (later : List Move), s.inbox = m :: later →
    step s = applyMove m { s with inbox := later } ∧
    (∀ i, m = .turn → decodeSt s.st = .ok i → step s = exec i { s with inbox := later }) ∧
    (∀ d, m = .writeReg 0 d → d % 2 = 1 → step s = exec .start { s with inbox := later })

/-- The next step after `withFetchWord` runs the instruction the table word decodes to (log entry 5). -/
def Obligations.PlacedTableWordRunsNext : Prop :=
  ∀ (s : State) (nbits w : Nat) (i : Instr), decodeTableWord nbits w = some i →
    (i = .start → step (s.withFetchWord nbits w) = exec .start s) ∧
    (i ≠ .start → step (s.withFetchWord nbits w) = exec i (s.withFetchWord nbits w))

/-- `10_state.md` R33, `30_encoding.md` R77, `10_state.md` R32: a host write reaches START exactly through bit 0 of
`CTRL`; every other write is ignored; `CTRL` reads as 0. -/
def Obligations.HostWriteIsStartOrIgnored : Prop :=
  ∀ (s : State) (num data : Nat),
    (num = 0 → data % 2 = 1 → writeReg num data s = exec .start s) ∧
    (num = 0 → data % 2 = 0 → writeReg num data s = next s) ∧
    (num ≠ 0 → writeReg num data s = next s) ∧
    readReg s 0 = 0

/-! ### Reset -/

/-- `10_state.md` R41: the registers and the derived status after reset, for every build. The clause on `EVLOG` is the
model's reading (log entry 15, DEDUCED): R41 leaves the history unchanged by reset and has it empty when the sink
itself starts, and the reset state takes the sink to start together with RRC. -/
def Obligations.ResetStateValues : Prop :=
  (∃ g, State.reset = State.resetOf g) ∧
  ∀ g : Config.Geometry,
    let s := State.resetOf g
    s.st = 0x0#4 ∧ s.found = false ∧ s.sel = 0 ∧ s.evId = 0x0000#16 ∧
    s.evTamper = false ∧ s.evAlarm = false ∧ s.evBattOk = false ∧
    isBusy s.st = false ∧ isDone s.st = false ∧ resultOf s.st = .none ∧
    statusReg s = 0x000#10 ∧ evFlagsReg s = 0b000#3 ∧ readReg s 5 = 0x041805 ∧ s.evlog = []

/-- `70_reset_and_hazards.md` R190 to R192: reset is possible in any state, gives every register its reset value,
reports no outcome, and leaves the Row Buffer and the sink's history alone. -/
def Obligations.ResetMoveInEveryState : Prop :=
  ∀ (s : State) (later : List Move), s.inbox = .reset :: later →
    ∃ t, step s = next t ∧
      t.st = 0x0#4 ∧ t.found = false ∧ t.sel = 0 ∧ t.evId = 0x0000#16 ∧
      t.evTamper = false ∧ t.evAlarm = false ∧ t.evBattOk = false ∧
      isBusy t.st = false ∧ isDone t.st = false ∧ resultOf t.st = .none ∧
      t.rb = s.rb ∧ t.evlog = s.evlog ∧ t.geom = s.geom ∧ t.inbox = later

/-! ### START and the resting states -/

/-- `43_sequencer.md` R141: in a resting state START clears `FOUND` and begins an attempt, writing nothing else, and
the previous outcome is no longer readable; while busy it has no effect. The launch premises are R194's. -/
def Obligations.StartBeginsAnAttempt : Prop :=
  ∀ s : State,
    (Resting s.st → LaunchPremises s → ∃ t, exec .start s = next t ∧ t = { s with found := false, st := stLocate } ∧
      resultOf t.st = .none ∧ isDone t.st = false ∧ isBusy t.st = true) ∧
    (s.st = stLocate ∨ s.st = stVlen ∨ s.st = stVnz ∨ s.st = stXfields ∨ s.st = stEmit → exec .start s = next s)

/-- `43_sequencer.md` R153: a START given while busy changes no state, is not queued and is not remembered: the step
takes it off the queue and leaves everything else. -/
def Obligations.StartWhileBusyIsIgnored : Prop :=
  ∀ (s : State) (data : Nat) (later : List Move), s.inbox = .writeReg 0 data :: later → isBusy s.st = true →
    step s = next { s with inbox := later }

/-- `43_sequencer.md` R142, R144 to R147: in a resting state RRC has no step and everything is unchanged. That its turn
there is a step which answers the same state is the model's choice (log entry 11, DEDUCED), as is the queue of the
last clause (log entry 2). -/
def Obligations.RestingStatesWait : Prop :=
  ∀ s : State,
    exec .idle s = next s ∧ exec .tSuccess s = next s ∧ exec .tAbort s = next s ∧ exec .tReject s = next s ∧
    (s.inbox = [] → Resting s.st → step s = next s)

/-! ### The comparator and the locator -/

/-- `20_memory.md` R52: bit k of a row in transmission order, most significant bit of each byte first. -/
def Obligations.RowBitsAreMostSignificantFirst : Prop :=
  ∀ (rb : RowBuffer) (r k : Nat),
    (rb.rowBit r k).toNat = ((rb.byteAt r (k / 8)).toNat >>> (7 - k % 8)) &&& 1 ∧
    (k < 8 → rb.rowBit r k = (rb.byteAt r 0).getLsbD (7 - k) ∧ rb.rowBit r (8 + k) = (rb.byteAt r 1).getLsbD (7 - k) ∧
      rb.rowBit r (16 + k) = (rb.byteAt r 2).getLsbD (7 - k))

/-- `40_comparator_locator.md` R90: the Hamming distance is the sum of the xors of the first n bits, with the corner
cases and the triangle inequality the rule lists; no bit at position n or later matters. -/
def Obligations.HammingDistanceLaws : Prop :=
  ∀ (rb : RowBuffer) (a b c n : Nat),
    hd rb a b n = ∑ k ∈ Finset.range n, (xor (rb.rowBit a k) (rb.rowBit b k)).toNat ∧
    hd rb a b n ≤ n ∧ hd rb a b 0 = 0 ∧ hd rb a a n = 0 ∧ hd rb a b n = hd rb b a n ∧
    hd rb a c n ≤ hd rb a b n + hd rb b c n ∧
    ∀ rb' : RowBuffer, (∀ k < n, rb'.rowBit a k = rb.rowBit a k ∧ rb'.rowBit b k = rb.rowBit b k) →
      hd rb' a b n = hd rb a b n

/-- `40_comparator_locator.md` R92: row equality is an equivalence relation, the rows of a class have one bit-count,
and the repeat count is constant on a class. -/
def Obligations.RowEqualityIsAnEquivalence : Prop :=
  ∀ (rb : RowBuffer),
    (∀ a, rowEq rb a a = true) ∧ (∀ a b, rowEq rb a b = true → rowEq rb b a = true) ∧
    (∀ a b c, rowEq rb a b = true → rowEq rb b c = true → rowEq rb a c = true) ∧
    (∀ a b, rowEq rb a b = true → rb.bitsAt a = rb.bitsAt b ∧ reps rb a = reps rb b)

/-- `92_eei_decisions.md` D6: for rows of 24 bits the compared bits are exactly bytes 0 to 2, so two such rows are
equal exactly when those three bytes are, whatever byte 3 holds (`40_comparator_locator.md` R91's corner case); rows
of different bit-count are never equal and two rows of bit-count 0 always are. -/
def Obligations.FrameEqualityIsBytesZeroToTwo : Prop :=
  ∀ (rb : RowBuffer) (a b : Nat),
    (rb.bitsAt a = 24 → rb.bitsAt b = 24 →
      (rowEq rb a b = true ↔
        rb.byteAt a 0 = rb.byteAt b 0 ∧ rb.byteAt a 1 = rb.byteAt b 1 ∧ rb.byteAt a 2 = rb.byteAt b 2)) ∧
    (rb.bitsAt a ≠ rb.bitsAt b → rowEq rb a b = false) ∧
    (rb.bitsAt a = 0 → rb.bitsAt b = 0 → rowEq rb a b = true)

/-- `40_comparator_locator.md` R93: the repeat count is the number of rows of the whole buffer that equal row i, and
lies between 1 and `RB.n`; a row unlike every other has count 1. -/
def Obligations.RepeatCountCountsTheWholeBuffer : Prop :=
  ∀ (rb : RowBuffer) (i : Nat),
    reps rb i = ((Finset.range rb.n).filter fun j => rowEq rb i j = true).card ∧
    (i < rb.n → 1 ≤ reps rb i ∧ reps rb i ≤ rb.n) ∧
    (i < rb.n → (∀ j < rb.n, j ≠ i → rowEq rb i j = false) → reps rb i = 1)

/-- `40_comparator_locator.md` R98: no row before the located row equals it; the located row's count is its forward
count; and the locator that counts only forward gives the same result on every buffer. -/
def Obligations.FirstOccurrenceLaw : Prop :=
  ∀ (rb : RowBuffer) (R : Nat) (hR : 1 ≤ R) (L : Nat),
    (∀ i0, locate rb R hR L = some i0 → (∀ j < i0, rowEq rb i0 j = false) ∧ repsFwd rb i0 = reps rb i0) ∧
    locateFwd rb R L = locate rb R hR L

/-- `40_comparator_locator.md` R104: the reference algorithm computes `locate(R, L)`. -/
def Obligations.ReferenceAlgorithmComputesLocate : Prop :=
  ∀ (rb : RowBuffer) (R : Nat) (hR : 1 ≤ R) (L : Nat), locateRef rb R L = locate rb R hR L

/-- `40_comparator_locator.md` R99: the locator depends on the row count, the bit-counts and the meaningful bits of
the rows only, not on trailing bits, on slots at or beyond `RB.n`, on any register or on any earlier attempt. -/
def Obligations.LocatorReadsOnlyMeaningfulBits : Prop :=
  (∀ (rb rb' : RowBuffer) (R : Nat) (hR : 1 ≤ R) (L : Nat), SameContent rb rb' →
    locate rb R hR L = locate rb' R hR L) ∧
  (∀ s s' t : State, SameContent s.rb s'.rb → s'.geom = s.geom → LaunchPremises s → exec .locate s = next t →
    ∃ t', exec .locate s' = next t' ∧ t'.st = t.st ∧ t'.rb = s'.rb ∧
      (t.st = stVlen → t'.sel = t.sel ∧ t'.found = t.found))

/-- `40_comparator_locator.md` R100: the corner cases (a) to (h) of the locator, for general R and L; (i), R = 0, has
no meaning and is excluded by `locate`'s proof argument. The clauses of (e): two rows of different classes can both
qualify only once `RB.n ≥ 2R`; whatever other rows qualify, and however large their classes are, the located row is
the first qualifying row and the first member of its class; no assumption is made on the counts. -/
def Obligations.LocatorCornerCases : Prop :=
  ∀ (rb : RowBuffer) (R : Nat) (hR : 1 ≤ R) (L : Nat),
    (rb.n = 0 → locate rb R hR L = none) ∧
    (rb.n < R → locate rb R hR L = none) ∧
    (locate rb 1 (Nat.le_refl 1) L = (List.range rb.n).find? fun i => rb.bitsAt i == L) ∧
    (∀ i < rb.n, rb.bitsAt i = 0 → (∀ j < i, rb.bitsAt j ≠ 0) →
      R ≤ ((List.range rb.n).filter fun j => rb.bitsAt j == 0).length → locate rb R hR 0 = some i) ∧
    (∀ i j, i < rb.n → j < rb.n → qualifies rb i R L = true → qualifies rb j R L = true → rowEq rb i j = false →
      2 * R ≤ rb.n) ∧
    (∀ i j, i < j → j < rb.n → qualifies rb i R L = true → qualifies rb j R L = true →
      (∃ i0 ≤ i, locate rb R hR L = some i0 ∧ qualifies rb i0 R L = true ∧ (∀ k < i0, qualifies rb k R L = false) ∧
        ∀ k < i0, rowEq rb i0 k = false) ∧
      ((∀ k < i, qualifies rb k R L = false) → locate rb R hR L = some i)) ∧
    (∀ i, rb.bitsAt i ≠ L → qualifies rb i R L = false) ∧
    ((∀ i < rb.n, rb.bitsAt i = L → reps rb i < R) → locate rb R hR L = none) ∧
    (∀ i j, rb.bitsAt i = L → L < rb.bitsAt j → rowEq rb i j = false) ∧
    (∀ (i : Nat) (rows : List Nat), rows.Nodup → R ≤ rows.length → i < rb.n → rb.bitsAt i = L →
      (∀ j ∈ rows, j < rb.n ∧ rowEq rb i j = true) → ∃ i0 ≤ i, locate rb R hR L = some i0)

/-- `40_comparator_locator.md` R96: over a buffer that meets the launch premises LOCATE writes the smallest qualifying
row index to `SEL`, 1 to `FOUND` and VLEN to `ST`; when no row qualifies it writes T_ABORT to `ST` alone. -/
def Obligations.LocateSelectsTheFirstQualifyingRow : Prop :=
  ∀ s : State, LaunchPremises s →
    (∀ i0, FirstQualifying s.rb i0 → exec .locate s = next { s with sel := i0, found := true, st := stVlen }) ∧
    ((∀ i < s.rb.n, qualifies s.rb i 5 24 = false) → exec .locate s = next { s with st := stAbort }) ∧
    ((∃ i0, FirstQualifying s.rb i0) ∨ ∀ i < s.rb.n, qualifies s.rb i 5 24 = false)

/-- `40_comparator_locator.md` R97: what a located row guarantees. -/
def Obligations.LocatedRowIsRepeatedFiveTimes : Prop :=
  ∀ s t : State, exec .locate s = next t → t.st = stVlen →
    t.sel < s.rb.n ∧ s.rb.bitsAt t.sel = 24 ∧ FiveEqualFrames s.rb t.sel

/-! ### The validator -/

/-- `41_validator.md` R110: VLEN passes exactly a bit-count of 24 and writes `ST` only. -/
def Obligations.VlenPassesExactly24Bits : Prop :=
  ∀ s : State, s.sel < s.geom.nrowsMax →
    (s.rb.bitsAt s.sel = 24 → exec .vlen s = next { s with st := stVnz }) ∧
    (s.rb.bitsAt s.sel ≠ 24 → exec .vlen s = next { s with st := stAbort })

/-- `41_validator.md` R111: under `LEN_MODE = EQ` VLEN's Fail edge is never taken in a state the invariant holds of. -/
def Obligations.VlenFailEdgeIsDead : Prop :=
  ∀ s : State, Inv s → s.st = stVlen → exec .vlen s = next { s with st := stVnz }

/-- `41_validator.md` R112: VNZ rejects exactly when all four payload bytes are 0, byte 3 included, and writes `ST`
only. -/
def Obligations.VnzRejectsExactlyAllZero : Prop :=
  ∀ s : State, s.sel < s.geom.nrowsMax →
    ((∀ k < 4, s.rb.byteAt s.sel k = 0#8) → exec .vnz s = next { s with st := stReject }) ∧
    ((∃ k < 4, s.rb.byteAt s.sel k ≠ 0#8) → exec .vnz s = next { s with st := stXfields })

/-- `41_validator.md` R113: the fourth byte. (a) A non-zero byte among 0 to 2 passes whatever byte 3 is; (b) with
bytes 0 to 2 zero, byte 3 alone decides, and the passing case succeeds with the stated event; (c) the bytes are those
of the first member of the class, and no member's byte 3 has a say in which row is located. -/
def Obligations.FourthByteDecidesOnlyTheAllZeroCorner : Prop :=
  ∀ (rb : RowBuffer) (i : Nat), locateFrame rb = some i →
    (¬ (rb.byteAt i 0 = 0#8 ∧ rb.byteAt i 1 = 0#8 ∧ rb.byteAt i 2 = 0#8) →
      attempt rb = .success (payloadEvent (rb.payload i))) ∧
    (rb.byteAt i 0 = 0#8 → rb.byteAt i 1 = 0#8 → rb.byteAt i 2 = 0#8 →
      (rb.byteAt i 3 = 0#8 → attempt rb = .sanityFail) ∧
      (rb.byteAt i 3 ≠ 0#8 → attempt rb = .success ⟨"Roboguard", 0#16, false, false, true⟩)) ∧
    (∀ j < i, rowEq rb i j = false) ∧
    (rb.Wf → ∀ (r : Nat) (v : Byte), locateFrame (rb.setByte r 3 v) = some i)

/-- `41_validator.md` R115 and `60_exceptions.md` R168: a failing check writes `ST` and nothing else. -/
def Obligations.FailureWritesOnlyTheState : Prop :=
  ∀ (i : Instr) (s t : State), i = .locate ∨ i = .vlen ∨ i = .vnz → exec i s = next t →
    t.st = stAbort ∨ t.st = stReject → t = { s with st := t.st }

/-! ### The extractor and EMIT -/

/-- `42_extractor.md` R121 to R124: the fields as arithmetic and as bits. -/
def Obligations.FieldFormulas : Prop :=
  ∀ b0 b1 b2 : Byte,
    (xid b1 b2).toNat = b1.toNat * 256 + b2.toNat ∧ xid b1 b2 = b1 ++ b2 ∧
    xtamper b0 = b0.getLsbD 7 ∧ xbatt b0 = !b0.getLsbD 6 ∧ xalarm b0 = b0.getLsbD 5

/-- `42_extractor.md` R120: XFIELDS writes the four event registers and `ST` in one step, from bytes 0 to 2 of the
selected row. -/
def Obligations.XfieldsWritesTheFourFields : Prop :=
  ∀ s : State, s.sel < s.geom.nrowsMax →
    exec .xfields s = next
      { s with evId := s.rb.byteAt s.sel 1 ++ s.rb.byteAt s.sel 2,
               evTamper := (s.rb.byteAt s.sel 0).getLsbD 7,
               evAlarm := (s.rb.byteAt s.sel 0).getLsbD 5,
               evBattOk := !(s.rb.byteAt s.sel 0).getLsbD 6,
               st := stEmit }

/-- `42_extractor.md` R126 and R127, of the operation XFIELDS. R127: from any two states, whatever else differs in them,
each of the four registers it writes depends on its own payload bits only; it rejects no payload of a row slot that
exists; every combination of the flags is written with every identifier; and `b0 = b1 = b2 = 0` gives the named
values. R126: payloads that agree but in bits 4:0 of byte 0 and in byte 3 give the same four registers. The last
clause says the same of the event as a function of the payload. -/
def Obligations.EventDependsOnItsOwnBitsOnly : Prop :=
  (∀ s s' t t' : State, exec .xfields s = next t → exec .xfields s' = next t' →
    let p := s.rb.payload s.sel
    let q := s'.rb.payload s'.sel
    (p.b1 = q.b1 → p.b2 = q.b2 → t.evId = t'.evId) ∧
    (p.b0.getLsbD 7 = q.b0.getLsbD 7 → t.evTamper = t'.evTamper) ∧
    (p.b0.getLsbD 6 = q.b0.getLsbD 6 → t.evBattOk = t'.evBattOk) ∧
    (p.b0.getLsbD 5 = q.b0.getLsbD 5 → t.evAlarm = t'.evAlarm) ∧
    (p.b0 &&& 0xE0#8 = q.b0 &&& 0xE0#8 → p.b1 = q.b1 → p.b2 = q.b2 →
      t.evId = t'.evId ∧ t.evTamper = t'.evTamper ∧ t.evAlarm = t'.evAlarm ∧ t.evBattOk = t'.evBattOk) ∧
    (p.b0 = 0#8 → p.b1 = 0#8 → p.b2 = 0#8 →
      t.evId = 0#16 ∧ t.evTamper = false ∧ t.evAlarm = false ∧ t.evBattOk = true)) ∧
  (∀ s : State, s.sel < s.geom.nrowsMax → ∃ t, exec .xfields s = next t) ∧
  (∀ s : State, s.rb.Wf → s.sel < s.geom.nrowsMax → ∀ (id : Ident) (t a b : Bool),
    ∃ rb' u, rb'.Wf ∧ exec .xfields { s with rb := rb' } = next u ∧ u.evId = id ∧ u.evTamper = t ∧ u.evAlarm = a ∧
      u.evBattOk = b) ∧
  (∀ p q : Payload, p.b0 &&& 0xE0#8 = q.b0 &&& 0xE0#8 → p.b1 = q.b1 → p.b2 = q.b2 → payloadEvent p = payloadEvent q)

/-- `43_sequencer.md` R143: EMIT always completes, appends exactly the record of the event registers to `EVLOG` and
enters T_SUCCESS. The event port is valid for that step and only then, whoever moves (`70_reset_and_hazards.md` R200),
and shows the packed record in it; that the port is read off the state a step begins in is the model's choice (log
entry 22), as is the queue that says who moves (log entry 2). -/
def Obligations.EmitAppendsTheEvent : Prop :=
  ∀ s : State,
    exec .emit s = next
      { s with evlog := s.evlog ++ [⟨"Roboguard", s.evId, s.evTamper, s.evAlarm, s.evBattOk⟩], st := stSuccess } ∧
    (evValid s = true ↔ s.st = 0x5#4 ∧ (s.inbox = [] ∨ ∃ later, s.inbox = .turn :: later)) ∧
    (evValid s = true → step s = exec .emit { s with inbox := s.inbox.tail } ∧
      evData s = eventData ⟨"Roboguard", s.evId, s.evTamper, s.evAlarm, s.evBattOk⟩) ∧
    (∀ t, step s = next t → (evValid s = true ↔ t.evlog = s.evlog ++ [eventOf s]))

/-- `30_encoding.md` R74: the packed data word of an event. -/
def Obligations.EventDataWordLayout : Prop :=
  ∀ e : Event,
    (eventData e).toNat = e.id.toNat * 8 + e.tamper.toNat * 4 + e.alarm.toNat * 2 + e.batteryOk.toNat

/-! ### Status and registers -/

/-- `10_state.md` R31: BUSY, DONE and RESULT as functions of `ST`, and that exactly one of IDLE, BUSY, DONE holds for
the nine defined codes. -/
def Obligations.DerivedStatusOfSt : Prop :=
  ∀ c : StCode,
    (isBusy c = true ↔ 0x1#4 ≤ c ∧ c ≤ 0x5#4) ∧
    (isDone c = true ↔ 0x8#4 ≤ c ∧ c ≤ 0xA#4) ∧
    (isDone c = false → resultCode (resultOf c) = 0#2) ∧
    (isDone c = true → resultCode (resultOf c) = c.extractLsb' 0 2 + 1#2) ∧
    (resultOf 0x8#4 = .success ∧ resultOf 0x9#4 = .abortLength ∧ resultOf 0xA#4 = .failSanity) ∧
    ((Code.st c).wf = true →
      (c = 0x0#4 ∧ isBusy c = false ∧ isDone c = false) ∨ (c ≠ 0x0#4 ∧ isBusy c = true ∧ isDone c = false) ∨
      (c ≠ 0x0#4 ∧ isBusy c = false ∧ isDone c = true))

/-- `10_state.md` R34: the STATUS register, field by field. -/
def Obligations.StatusRegisterLayout : Prop :=
  ∀ s : State,
    (statusReg s).toNat = s.st.toNat + 16 * (isBusy s.st).toNat + 32 * (isDone s.st).toNat + 64 * s.found.toNat
      + 256 * (resultCode (resultOf s.st)).toNat

/-- `10_state.md` R32, R35, R36: what the host reads at each register number (a function of the state, so a read has no
side effect), and that a write to a register other than `CTRL` is ignored, in every state. `SEL` reads as its `SEL_W`
bits, which are the selected row's number whenever that is below `NROWS_MAX`, as R26 has it. -/
def Obligations.RegisterMap : Prop :=
  ∀ (s : State) (num data : Nat),
    readReg s 0 = 0 ∧ readReg s 1 = (statusReg s).toNat ∧ readReg s 2 = (selReg s).toNat ∧ readReg s 3 = s.evId.toNat ∧
    readReg s 2 < 2 ^ selW s.geom ∧ (s.sel < s.geom.nrowsMax → readReg s 2 = s.sel) ∧
    readReg s 4 = 4 * s.evTamper.toNat + 2 * s.evAlarm.toNat + s.evBattOk.toNat ∧ readReg s 5 = 0x041805 ∧
    (6 ≤ num → readReg s num = 0) ∧ (num ≠ 0 → writeReg num data s = next s)

/-! ### Frames -/

/-- `43_sequencer.md` R155 and `20_memory.md` R57: no instruction writes the Row Buffer (the count, a bit-count, or any
byte), and each register is written by its own operations only: `FOUND` by START and LOCATE, `SEL` by LOCATE, the
event registers by XFIELDS, `EVLOG` by EMIT. -/
def Obligations.InstructionFrame : Prop :=
  ∀ (i : Instr) (s t : State), exec i s = next t →
    (t.rb.n = s.rb.n ∧ (∀ r, t.rb.bitsAt r = s.rb.bitsAt r) ∧ (∀ r k, t.rb.byteAt r k = s.rb.byteAt r k)) ∧
    t.rb = s.rb ∧ t.geom = s.geom ∧ t.inbox = s.inbox ∧
    (i ≠ .start → i ≠ .locate → t.found = s.found) ∧
    (i ≠ .locate → t.sel = s.sel) ∧
    (i ≠ .xfields → t.evId = s.evId ∧ t.evTamper = s.evTamper ∧ t.evAlarm = s.evAlarm ∧ t.evBattOk = s.evBattOk) ∧
    (i ≠ .emit → t.evlog = s.evlog) ∧
    (i = .idle ∨ i = .tSuccess ∨ i = .tAbort ∨ i = .tReject → t.st = s.st)

/-- `10_state.md` R25: START writes 0 to `FOUND` when accepted, LOCATE writes 1 exactly when it writes `SEL`, nothing
else writes it, and no operation reads it: two states that differ in `FOUND` alone step to states that differ in
`FOUND` at most. -/
def Obligations.FoundIsWrittenByStartAndLocateAndReadByNone : Prop :=
  ∀ (i : Instr) (s t : State), exec i s = next t →
    (i = .start → isBusy s.st = false → t.found = false) ∧
    (i = .locate → t.st = stVlen → t.found = true) ∧
    (i = .locate → t.st ≠ stVlen → t.found = s.found ∧ t.sel = s.sel) ∧
    (i ≠ .start → i ≠ .locate → t.found = s.found) ∧
    ∀ b, ∃ t', exec i { s with found := b } = next t' ∧ { t' with found := false } = { t with found := false }

/-- The only stops of an instruction, each the model's choice where the spec specifies no behaviour. START (when it would
be accepted) and LOCATE refuse a buffer that breaks a launch premise: `70_reset_and_hazards.md` R194 leaves the
behaviour unspecified and asks to refuse the launch, and that LOCATE refuses too is log entry 7 (DEDUCED). START
refuses a reserved `ST`: `30_encoding.md` R79 c leaves it open, log entry 8 (DESIGN CHOICE). VLEN, VNZ and XFIELDS
fault when `SEL` is no row slot: `20_memory.md` R50 says which locations exist but not that another access faults,
log entry 13 (DEDUCED). -/
def Obligations.InstructionStopsOnlyAsNamed : Prop :=
  ∀ (i : Instr) (s : State),
    (∀ r, exec i s = refused r ↔
      (r = .launchPremises ∧ ¬ LaunchPremises s ∧ (i = .locate ∨ (i = .start ∧ Resting s.st))) ∨
      (r = .reservedCode s.st ∧ i = .start ∧ (Code.st s.st).wf = false)) ∧
    (∀ f, exec i s = fault f ↔
      f = .noSuchRow s.sel ∧ s.geom.nrowsMax ≤ s.sel ∧ (i = .vlen ∨ i = .vnz ∨ i = .xfields))

/-! ### The producer -/

/-- `20_memory.md` R67, R50: while RRC is not busy, a producer write to a location that exists stores there and changes
nothing else; every other byte and bit-count reads as before. Two points are the model's choice: every row count and
every bit-count can be written, also beyond `NROWS_MAX` and `8 × ROW_BYTES` (log entry 19), and the premise that the
Row Buffer is in canonical form is about the model's representation of it (log entry 4). -/
def Obligations.ProducerWriteStoresThereAlone : Prop :=
  ∀ s : State, s.rb.Wf → isBusy s.st = false →
    (∀ n, ∃ t, applyMove (.setRows n) s = next t ∧ t = { s with rb := t.rb } ∧ t.rb.n = n ∧
      t.rb.bits = s.rb.bits ∧ t.rb.data = s.rb.data) ∧
    (∀ r bits, r < s.geom.nrowsMax → ∃ t, applyMove (.setBits r bits) s = next t ∧ t = { s with rb := t.rb } ∧
      t.rb.bitsAt r = bits ∧ (∀ r', r' ≠ r → t.rb.bitsAt r' = s.rb.bitsAt r') ∧ t.rb.n = s.rb.n ∧
      t.rb.data = s.rb.data) ∧
    (∀ r k v, r < s.geom.nrowsMax → k < s.geom.rowBytes → ∃ t, applyMove (.setByte r k v) s = next t ∧
      t = { s with rb := t.rb } ∧ t.rb.byteAt r k = v ∧
      (∀ r' k', ¬ (r' = r ∧ k' = k) → t.rb.byteAt r' k' = s.rb.byteAt r' k') ∧ t.rb.n = s.rb.n ∧
      t.rb.bits = s.rb.bits)

/-- `20_memory.md` R67 and `70_reset_and_hazards.md` R195: the producer has no write move while `BUSY = 1`. That the
model refuses one is its choice among the two treatments of `93_implementation_defined.md` U3 (log entry 6, DESIGN
CHOICE). That a write to a location `20_memory.md` R50 does not list faults is the model's choice too (log entry 13,
DEDUCED): R50 does not say what such an access does. -/
def Obligations.ProducerWriteStops : Prop :=
  ∀ (s : State) (n r bits k : Nat) (v : Byte),
    (isBusy s.st = true →
      applyMove (.setRows n) s = refused .producerWriteWhileBusy ∧
      applyMove (.setBits r bits) s = refused .producerWriteWhileBusy ∧
      applyMove (.setByte r k v) s = refused .producerWriteWhileBusy) ∧
    (isBusy s.st = false → s.geom.nrowsMax ≤ r →
      applyMove (.setBits r bits) s = fault (.noSuchRow r) ∧ applyMove (.setByte r k v) s = fault (.noSuchRow r)) ∧
    (isBusy s.st = false → r < s.geom.nrowsMax → s.geom.rowBytes ≤ k →
      applyMove (.setByte r k v) s = fault (.noSuchByte r k))

/-! ### Invariants of every step -/

/-- Every step, of RRC or of its environment, keeps the invariant of the sequencer (`43_sequencer.md` R147,
`40_comparator_locator.md` R97, `10_state.md` R26). -/
def Obligations.EveryStepKeepsTheInvariant : Prop :=
  ∀ s t : State, Inv s → step s = next t → Inv t

/-- The invariant holds after reset, for every build. The Row Buffer's content there is the model's choice (log entry
4), which the invariant does not rest on beyond its canonical form. -/
def Obligations.InvariantHoldsAtReset : Prop :=
  Inv State.reset ∧ ∀ g : Config.Geometry, Inv (State.resetOf g)

/-- Every step keeps the Row Buffer's canonical form and the build, in every state. The canonical form is the model's
own representation of the Row Buffer (log entry 4, DESIGN CHOICE); the build is a field of State by the model's choice
(log entry 1), and that it never changes is `10_state.md` R39, by which it is a parameter and not state. -/
def Obligations.EveryStepKeepsMemoryCanonical : Prop :=
  ∀ s t : State, step s = next t → (s.rb.Wf → t.rb.Wf) ∧ t.geom = s.geom

/-- `30_encoding.md` R79 (c): no rule writes a reserved code. -/
def Obligations.NoStepWritesAReservedCode : Prop :=
  ∀ s t : State, step s = next t → (t.st = s.st ∨ (Code.st t.st).wf = true)

/-- `43_sequencer.md` R147, the rows whose agent is RRC: in every state of the invariant in which RRC moves, the step is
the table's, and in a busy state it exists and is the only one. In a resting state R147 gives RRC no step; there the
model's turn is a step that changes nothing (log entry 11, DEDUCED), which `RrcTransition.resting` stands for. That
RRC moves when the queue is empty is log entry 2. -/
def Obligations.StepIsTheTransitionTable : Prop :=
  ∀ s : State, Inv s → s.inbox = [] →
    (∀ t, step s = next t ↔ RrcTransition s t) ∧ (∃ t, step s = next t) ∧
    (∀ t t', RrcTransition s t → RrcTransition s t' → t = t')

/-- `10_state.md` R30, `43_sequencer.md` R143: `EVLOG` only grows, by at most the one record of the event registers a
step, and only in the EMIT step: a step that changes it is RRC's EMIT, off the queue, with `ST` at EMIT. -/
def Obligations.EvlogGrowsOnlyByEmit : Prop :=
  ∀ s t : State, step s = next t →
    t.evlog = s.evlog ∨
    (s.st = stEmit ∧ exec .emit { s with inbox := s.inbox.tail } = next t ∧ t.evlog = s.evlog ++ [eventOf s] ∧
      t.st = stSuccess)

/-- `10_state.md` R26 to R28: `SEL` changes only in the step of a LOCATE that finds a row, the event registers only in
the step of XFIELDS, or by reset. -/
def Obligations.RegistersHoldUntilWrittenOrReset : Prop :=
  ∀ s t : State, step s = next t → (∀ later, s.inbox ≠ .reset :: later) →
    (¬ (s.st = stLocate ∧ t.st = stVlen) → t.sel = s.sel) ∧
    (¬ (s.st = stXfields ∧ t.st = stEmit) →
      t.evId = s.evId ∧ t.evTamper = s.evTamper ∧ t.evAlarm = s.evAlarm ∧ t.evBattOk = s.evBattOk)

/-- `20_memory.md` R56: over a buffer that meets the launch premises, every byte the comparator reads of a row, and
every payload byte of the selected row, is a location that exists. -/
def Obligations.EveryReadIsInBounds : Prop :=
  ∀ s : State, LaunchPremises s →
    (∀ r < s.rb.n, bitsRead s r = .ok (s.rb.bitsAt r) ∧
      ∀ k < s.rb.bitsAt r, memRead s r (k / 8) = .ok (s.rb.byteAt r (k / 8))) ∧
    (Inv s → ∀ k < 4, memRead s s.sel k = .ok (s.rb.byteAt s.sel k)) ∧
    (Inv s → s.st = stVlen ∨ s.st = stVnz ∨ s.st = stXfields ∨ s.st = stEmit → s.sel < s.rb.n)

/-! ### The attempt -/

/-- `43_sequencer.md` R149: from a resting state with START as the next move, over a buffer that meets the launch
premises, START and five turns of RRC reach the resting state that `decode(RB)` says, with `FOUND` 1 and `SEL` the
located row where the attempt succeeds or fails its sanity check (R144, R146), and `FOUND` 0 where it aborts (R145). -/
def Obligations.AttemptAgreesWithDecode : Prop :=
  ∀ s : State, Resting s.st → LaunchPremises s → s.inbox = [.writeReg 0 1] →
    ∃ t, Host.Core.run Sys2Proof.core 6 s = next t ∧ AttemptEnds s t

/-- `43_sequencer.md` R148, `70_reset_and_hazards.md` R202: from an accepted START RRC is busy for exactly one, three or
five steps (AbortLength, SanityFail, Success) and then rests. R148's two-step path, an abort in VLEN, does not occur:
`41_validator.md` R111 (from `40_comparator_locator.md` R97 and `20_memory.md` R62) shows it dead under
`LEN_MODE = EQ`. -/
def Obligations.AttemptEndsWithinFiveSteps : Prop :=
  ∀ s : State, Resting s.st → LaunchPremises s → s.inbox = [.writeReg 0 1] →
    let k := match attempt s.rb with
      | .abortLength => 1
      | .sanityFail => 3
      | .success _ => 5
    (∃ t, Host.Core.run Sys2Proof.core (1 + k) s = next t ∧ Resting t.st ∧ t.st ≠ stIdle) ∧
    (∀ j < k, ∃ u, Host.Core.run Sys2Proof.core (1 + j) s = next u ∧ isBusy u.st = true)

/-- `43_sequencer.md` R150: an attempt depends on the buffer's content (the row count, and the bit-counts and bytes of
the rows below it) and on nothing else: two machines, of whatever builds, whose buffers agree in that content have one
`decode(RB)` and end in the same terminal state with the same `FOUND`, where a row was found the same `SEL`, and the
same records sent; and a second START over a buffer of the same content gives the same terminal state, `SEL` and
`FOUND`, and on success a second, equal record. -/
def Obligations.DecodingIsDeterministic : Prop :=
  (∀ s s' t t' : State, Resting s.st → Resting s'.st → LaunchPremises s → LaunchPremises s' →
    SameRows s.geom s.rb s'.rb → s.inbox = [.writeReg 0 1] → s'.inbox = [.writeReg 0 1] →
    Host.Core.run Sys2Proof.core 6 s = next t → Host.Core.run Sys2Proof.core 6 s' = next t' →
    attempt s'.rb = attempt s.rb ∧ t'.st = t.st ∧ t'.found = t.found ∧ (t.found = true → t'.sel = t.sel) ∧
    ∃ sent, t.evlog = s.evlog ++ sent ∧ t'.evlog = s'.evlog ++ sent) ∧
  (∀ s t : State, Resting s.st → LaunchPremises s → s.inbox = [.writeReg 0 1] →
    Host.Core.run Sys2Proof.core 6 s = next t → ∀ rb', SameRows t.geom t.rb rb' →
    ∃ u, Host.Core.run Sys2Proof.core 6 { t with rb := rb', inbox := [.writeReg 0 1] } = next u ∧
      u.st = t.st ∧ u.sel = t.sel ∧ u.found = t.found ∧ u.rb = rb' ∧
      (t.st = stSuccess → ∃ e, t.evlog = s.evlog ++ [e] ∧ u.evlog = s.evlog ++ [e, e]))

/-- `60_exceptions.md` R161, R162, R169: a failed attempt sends no event and leaves the event registers as they were
(a host can read them stale, `70_reset_and_hazards.md` R198); `FOUND` tells whether the locator failed, and then `SEL`
is what it was. -/
def Obligations.FailedAttemptHoldsTheEventRegisters : Prop :=
  ∀ s t : State, Resting s.st → LaunchPremises s → s.inbox = [.writeReg 0 1] →
    Host.Core.run Sys2Proof.core 6 s = next t → t.st = stAbort ∨ t.st = stReject →
    t.evId = s.evId ∧ t.evTamper = s.evTamper ∧ t.evAlarm = s.evAlarm ∧ t.evBattOk = s.evBattOk ∧
    t.evlog = s.evlog ∧
    (t.st = stAbort → t.found = false ∧ t.sel = s.sel) ∧
    (t.st = stReject → t.found = true ∧ ∀ k < 4, s.rb.byteAt t.sel k = 0#8)

/-- `43_sequencer.md` R151: (a) an attempt that ends in T_SUCCESS had five equal 24-bit rows in the buffer; (b) five
equal 24-bit rows always pass the locator. -/
def Obligations.RepeatThreshold : Prop :=
  (∀ s t : State, Resting s.st → LaunchPremises s → s.inbox = [.writeReg 0 1] →
    Host.Core.run Sys2Proof.core 6 s = next t → t.st = stSuccess → ∃ i, FiveEqualFrames s.rb i) ∧
  (∀ (s : State) (i : Nat), LaunchPremises s → FiveEqualFrames s.rb i →
    ∃ t, exec .locate s = next t ∧ t.found = true ∧ t.st = stVlen)

/-- `60_exceptions.md` R166: the first failing check decides. A buffer without five equal 24-bit rows ends in
AbortLength whatever its payload bytes; a buffer whose rows are all of 24 bits and all zero ends in SanityFail when it
has five rows or more, in AbortLength when it has four. -/
def Obligations.FirstFailingCheckDecides : Prop :=
  ∀ rb : RowBuffer,
    ((∀ i < rb.n, rb.bitsAt i ≠ 24 ∨ reps rb i < 5) → attempt rb = .abortLength) ∧
    ((∀ r < rb.n, rb.bitsAt r = 24 ∧ ∀ k < 4, rb.byteAt r k = 0#8) → 5 ≤ rb.n → attempt rb = .sanityFail) ∧
    ((∀ r < rb.n, rb.bitsAt r = 24 ∧ ∀ k < 4, rb.byteAt r k = 0#8) → rb.n ≤ 4 → attempt rb = .abortLength)

/-- `60_exceptions.md` R178: what the optional trace port reports at each decision point. -/
def Obligations.TraceReportsTheDecisions : Prop :=
  ∀ (s t : State),
    (exec .start s = next t → traceOf .start s t = if t.st = s.st then none else some .entry) ∧
    (exec .locate s = next t → traceOf .locate s t = some (if t.st = stVlen then .rowFound t.sel else .rowNotFound)) ∧
    (exec .vlen s = next t → traceOf .vlen s t = some (.lengthCheck (s.rb.bitsAt s.sel == 24) (s.rb.bitsAt s.sel))) ∧
    (exec .vnz s = next t → traceOf .vnz s t = some (.sanityCheck (!(s.rb.payload s.sel).isZero))) ∧
    (exec .xfields s = next t → traceOf .xfields s t =
      some (.fieldValues t.evId t.evTamper t.evAlarm t.evBattOk))

/-! ### The open parameters -/

/-- `00_scope.md` R8 and `10_state.md` R26: in every build `NROWS_MAX ≥ R_MIN` and `ROW_BYTES ≥ PAYLOAD_BYTES`, and
`SEL_W` is the smallest width with `2^w ≥ NROWS_MAX`; every value LOCATE writes to `SEL` is below `NROWS_MAX` and fits
in that width; and in every state of the invariant the host reads the selected row's number. -/
def Obligations.SelWidthHoldsEveryRowNumber : Prop :=
  (∀ g : Config.Geometry, 5 ≤ g.nrowsMax ∧ 4 ≤ g.rowBytes ∧ g.nrowsMax ≤ 2 ^ selW g ∧
    ∀ w, g.nrowsMax ≤ 2 ^ w → selW g ≤ w) ∧
  (∀ s t : State, exec .locate s = next t → t.st = stVlen → t.sel < s.geom.nrowsMax ∧ (selReg t).toNat = t.sel) ∧
  (∀ s : State, Inv s → (selReg s).toNat = s.sel ∧ readReg s 2 = s.sel)
end

