-- ==== Sys2Proof/Laws/State.lean ====
section
/-! SUPPORT. One lemma per field per named update, true by rfl. -/

namespace Sys2Proof.Machine

section raise
variable (f : Failure) (s : State)
@[simp] theorem raise_st : (raise f s).st = failureCode f := rfl
@[simp] theorem raise_found : (raise f s).found = s.found := rfl
@[simp] theorem raise_sel : (raise f s).sel = s.sel := rfl
@[simp] theorem raise_evId : (raise f s).evId = s.evId := rfl
@[simp] theorem raise_evTamper : (raise f s).evTamper = s.evTamper := rfl
@[simp] theorem raise_evAlarm : (raise f s).evAlarm = s.evAlarm := rfl
@[simp] theorem raise_evBattOk : (raise f s).evBattOk = s.evBattOk := rfl
@[simp] theorem raise_rb : (raise f s).rb = s.rb := rfl
@[simp] theorem raise_evlog : (raise f s).evlog = s.evlog := rfl
@[simp] theorem raise_geom : (raise f s).geom = s.geom := rfl
@[simp] theorem raise_inbox : (raise f s).inbox = s.inbox := rfl
end raise

@[simp] theorem failureCode_abort : failureCode .abortLength = stAbort := rfl
@[simp] theorem failureCode_sanity : failureCode .sanityFail = stReject := rfl

section reset
variable (s : State)
@[simp] theorem applyReset_st : (applyReset s).st = stIdle := rfl
@[simp] theorem applyReset_found : (applyReset s).found = false := rfl
@[simp] theorem applyReset_sel : (applyReset s).sel = 0 := rfl
@[simp] theorem applyReset_evId : (applyReset s).evId = 0x0000#16 := rfl
@[simp] theorem applyReset_evTamper : (applyReset s).evTamper = false := rfl
@[simp] theorem applyReset_evAlarm : (applyReset s).evAlarm = false := rfl
@[simp] theorem applyReset_evBattOk : (applyReset s).evBattOk = false := rfl
@[simp] theorem applyReset_rb : (applyReset s).rb = s.rb := rfl
@[simp] theorem applyReset_evlog : (applyReset s).evlog = s.evlog := rfl
@[simp] theorem applyReset_geom : (applyReset s).geom = s.geom := rfl
@[simp] theorem applyReset_inbox : (applyReset s).inbox = s.inbox := rfl
end reset

section buffer
variable (rb : RowBuffer) (n r bits k : Nat) (v : Byte)
@[simp] theorem setRows_n : (rb.setRows n).n = n := rfl
@[simp] theorem setRows_bits : (rb.setRows n).bits = rb.bits := rfl
@[simp] theorem setRows_data : (rb.setRows n).data = rb.data := rfl
@[simp] theorem setBits_n : (rb.setBits r bits).n = rb.n := rfl
@[simp] theorem setBits_data : (rb.setBits r bits).data = rb.data := rfl
@[simp] theorem setByte_n : (rb.setByte r k v).n = rb.n := rfl
@[simp] theorem setByte_bits : (rb.setByte r k v).bits = rb.bits := rfl
end buffer

/-- Every row slot stores the four payload bytes (`00_scope.md` R8). -/
theorem four_le_rowBytes (g : Config.Geometry) : 4 ≤ g.rowBytes := g.bytes_ok

/-- The buffer has room for the repeats a success needs (R8). -/
theorem five_le_nrowsMax (g : Config.Geometry) : 5 ≤ g.nrowsMax := g.rows_ok

theorem missingRow_eq_none {s : State} {r : Nat} : missingRow s r = none ↔ r < s.geom.nrowsMax := by
  simp [missingRow]

theorem missingByte_eq_none {s : State} {r k : Nat} :
    missingByte s r k = none ↔ r < s.geom.nrowsMax ∧ k < s.geom.rowBytes := by
  unfold missingByte
  split <;> simp_all

theorem missingRow_of_ge {s : State} {r : Nat} (h : s.geom.nrowsMax ≤ r) : missingRow s r = some (.noSuchRow r) := by
  simp [missingRow, Nat.not_lt.mpr h]

theorem missingByte_of_row_ge {s : State} {r : Nat} (h : s.geom.nrowsMax ≤ r) (k : Nat) :
    missingByte s r k = some (.noSuchRow r) := by
  simp [missingByte, Nat.not_lt.mpr h]

theorem missingByte_of_byte_ge {s : State} {r k : Nat} (hr : r < s.geom.nrowsMax) (hk : s.geom.rowBytes ≤ k) :
    missingByte s r k = some (.noSuchByte r k) := by
  simp [missingByte, hr, Nat.not_lt.mpr hk]

/-- The four payload bytes of a slot that exists are read through `MemRead` in bounds (`20_memory.md` R56). -/
theorem memRead_payload {s : State} {r k : Nat} (hr : r < s.geom.nrowsMax) (hk : k < 4) :
    memRead s r k = .ok (s.rb.byteAt r k) := by
  have := four_le_rowBytes s.geom
  simp [memRead, missingByte, hr, show k < s.geom.rowBytes by omega]

end Sys2Proof.Machine
end

