-- ==== Sys2Proof/Laws/Codes.lean ====
section
/-! SUPPORT. The codes: what each decodes to, which are busy or terminal, that they differ. -/

namespace Sys2Proof.Machine

/-! The codes as literals, so that simp decides which codes differ. -/

@[simp] theorem stIdle_eq : stIdle = 0x0#4 := rfl
@[simp] theorem stLocate_eq : stLocate = 0x1#4 := rfl
@[simp] theorem stVlen_eq : stVlen = 0x2#4 := rfl
@[simp] theorem stVnz_eq : stVnz = 0x3#4 := rfl
@[simp] theorem stXfields_eq : stXfields = 0x4#4 := rfl
@[simp] theorem stEmit_eq : stEmit = 0x5#4 := rfl
@[simp] theorem stSuccess_eq : stSuccess = 0x8#4 := rfl
@[simp] theorem stAbort_eq : stAbort = 0x9#4 := rfl
@[simp] theorem stReject_eq : stReject = 0xA#4 := rfl

@[simp] theorem isBusy_idle : isBusy stIdle = false := rfl
@[simp] theorem isBusy_locate : isBusy stLocate = true := rfl
@[simp] theorem isBusy_vlen : isBusy stVlen = true := rfl
@[simp] theorem isBusy_vnz : isBusy stVnz = true := rfl
@[simp] theorem isBusy_xfields : isBusy stXfields = true := rfl
@[simp] theorem isBusy_emit : isBusy stEmit = true := rfl
@[simp] theorem isBusy_success : isBusy stSuccess = false := rfl
@[simp] theorem isBusy_abort : isBusy stAbort = false := rfl
@[simp] theorem isBusy_reject : isBusy stReject = false := rfl
@[simp] theorem isResting_idle : isResting stIdle = true := rfl
@[simp] theorem isResting_locate : isResting stLocate = false := rfl
@[simp] theorem isResting_vlen : isResting stVlen = false := rfl
@[simp] theorem isResting_vnz : isResting stVnz = false := rfl
@[simp] theorem isResting_xfields : isResting stXfields = false := rfl
@[simp] theorem isResting_emit : isResting stEmit = false := rfl
@[simp] theorem isResting_success : isResting stSuccess = true := rfl
@[simp] theorem isResting_abort : isResting stAbort = true := rfl
@[simp] theorem isResting_reject : isResting stReject = true := rfl

@[simp] theorem decodeSt_idle : decodeSt stIdle = .ok .idle := rfl
@[simp] theorem decodeSt_locate : decodeSt stLocate = .ok .locate := rfl
@[simp] theorem decodeSt_vlen : decodeSt stVlen = .ok .vlen := rfl
@[simp] theorem decodeSt_vnz : decodeSt stVnz = .ok .vnz := rfl
@[simp] theorem decodeSt_xfields : decodeSt stXfields = .ok .xfields := rfl
@[simp] theorem decodeSt_emit : decodeSt stEmit = .ok .emit := rfl
@[simp] theorem decodeSt_success : decodeSt stSuccess = .ok .tSuccess := rfl
@[simp] theorem decodeSt_abort : decodeSt stAbort = .ok .tAbort := rfl
@[simp] theorem decodeSt_reject : decodeSt stReject = .ok .tReject := rfl

/-- A code that decodes to an instruction is that instruction's code. -/
theorem encode_of_decodeSt {c : StCode} {i : Instr} (h : decodeSt c = .ok i) : encode i = .st c := by
  have all : ∀ c : StCode, (match decodeSt c with | .ok i => decide (encode i = .st c) | .error _ => true) = true := by decide
  simpa [h] using all c

/-- A code that decodes is one of the nine of the table. -/
theorem decodeSt_cases {c : StCode} {i : Instr} (h : decodeSt c = .ok i) :
    (c = stIdle ∧ i = .idle) ∨ (c = stLocate ∧ i = .locate) ∨ (c = stVlen ∧ i = .vlen) ∨ (c = stVnz ∧ i = .vnz) ∨
    (c = stXfields ∧ i = .xfields) ∨ (c = stEmit ∧ i = .emit) ∨ (c = stSuccess ∧ i = .tSuccess) ∨
    (c = stAbort ∧ i = .tAbort) ∨ (c = stReject ∧ i = .tReject) := by
  have := encode_of_decodeSt h
  cases i <;> simp_all [encode]

/-- The instruction a busy code names, and no other, is one of the five sequencer operations. -/
theorem isBusy_iff {c : StCode} : isBusy c = true ↔
    c = stLocate ∨ c = stVlen ∨ c = stVnz ∨ c = stXfields ∨ c = stEmit := by
  simp [isBusy, or_assoc]

theorem isResting_iff {c : StCode} : isResting c = true ↔
    c = stIdle ∨ c = stSuccess ∨ c = stAbort ∨ c = stReject := by
  simp [isResting, isDone, or_assoc]

/-- A resting code is not busy. -/
theorem isBusy_of_isResting {c : StCode} (h : isResting c = true) : isBusy c = false := by
  rcases isResting_iff.mp h with rfl | rfl | rfl | rfl <;> rfl

end Sys2Proof.Machine
end

