-- ==== Sys2Proof/Laws/Memory.lean ====
section
/-! SUPPORT. The laws of the canonical cell lists and of the Row Buffer: a read after a write, other places left
alone, every write keeps the canonical form, equal contents are equal data. -/

namespace Sys2Proof.Machine

variable {α : Type}

theorem cellsGet_of_forall_gt {d : α} {m : List (Nat × α)} {q : Nat} (h : ∀ e ∈ m, q < e.1) : cellsGet d m q = d := by
  induction m with
  | nil => rfl
  | cons e rest ih =>
    have hq := h e List.mem_cons_self
    simp only [cellsGet]
    rw [if_neg (by omega)]
    exact ih fun e' he' => h e' (List.mem_cons_of_mem _ he')

theorem cellsWf_cons {d : α} {e : Nat × α} {rest : List (Nat × α)} :
    CellsWf d (e :: rest) ↔ (∀ e' ∈ rest, e.1 < e'.1) ∧ e.2 ≠ d ∧ CellsWf d rest := by
  simp only [CellsWf, List.pairwise_cons, List.mem_cons, forall_eq_or_imp]
  tauto

variable [DecidableEq α]

/-- A write leaves every other key alone. -/
theorem cellsGet_cellsSet_of_ne {d : α} {m : List (Nat × α)} {q q' : Nat} {x : α} (h : q' ≠ q) :
    cellsGet d (cellsSet d m q x) q' = cellsGet d m q' := by
  induction m with
  | nil => simp only [cellsSet]; split <;> simp [cellsGet, h]
  | cons e rest ih =>
    obtain ⟨k, v⟩ := e
    simp only [cellsSet]
    split
    · split <;> simp [cellsGet, h]
    · split
      · subst q; split <;> simp [cellsGet, h]
      · simp [cellsGet, ih]

/-- A read after a write of the same key gives what was written. -/
theorem cellsGet_cellsSet_same {d : α} {m : List (Nat × α)} {q : Nat} {x : α} (h : CellsWf d m) :
    cellsGet d (cellsSet d m q x) q = x := by
  induction m with
  | nil => simp only [cellsSet]; split <;> simp_all [cellsGet]
  | cons e rest ih =>
    obtain ⟨k, v⟩ := e
    obtain ⟨hgt, -, hrest⟩ := cellsWf_cons.mp h
    have hgt' : q ≤ k → ∀ e' ∈ rest, q < e'.1 := fun hk e' he' => lt_of_le_of_lt hk (hgt e' he')
    simp only [cellsSet]
    split
    · rename_i hlt
      split
      · subst x
        simp only [cellsGet, if_neg (show ¬ q = k by omega)]
        exact cellsGet_of_forall_gt (hgt' hlt.le)
      · simp [cellsGet]
    · split
      · rename_i _ heq
        split
        · subst x; exact cellsGet_of_forall_gt (hgt' heq.le)
        · simp [cellsGet]
      · rename_i _ hne
        simp [cellsGet, hne, ih hrest]

/-- A write puts no key into the list but its own. -/
theorem mem_cellsSet {d : α} {m : List (Nat × α)} {q : Nat} {x : α} {e : Nat × α}
    (h : e ∈ cellsSet d m q x) : e ∈ m ∨ (e = (q, x) ∧ x ≠ d) := by
  induction m with
  | nil => simp only [cellsSet] at h; split at h <;> simp_all
  | cons e' rest ih =>
    obtain ⟨k, v⟩ := e'
    simp only [cellsSet] at h
    split at h
    · split at h
      · exact .inl h
      · rcases List.mem_cons.mp h with rfl | h'
        · exact .inr ⟨rfl, ‹_›⟩
        · exact .inl h'
    · split at h
      · split at h
        · exact .inl (List.mem_cons_of_mem _ h)
        · rcases List.mem_cons.mp h with rfl | h'
          · exact .inr ⟨rfl, ‹_›⟩
          · exact .inl (List.mem_cons_of_mem _ h')
      · rcases List.mem_cons.mp h with rfl | h'
        · exact .inl List.mem_cons_self
        · exact (ih h').imp (List.mem_cons_of_mem _) id

/-- A write keeps the canonical form. -/
theorem cellsWf_cellsSet {d : α} {m : List (Nat × α)} (q : Nat) (x : α) (h : CellsWf d m) :
    CellsWf d (cellsSet d m q x) := by
  induction m with
  | nil => simp only [cellsSet]; split <;> simp_all [CellsWf]
  | cons e rest ih =>
    obtain ⟨k, v⟩ := e
    obtain ⟨hgt, hv, hrest⟩ := cellsWf_cons.mp h
    simp only [cellsSet]
    split
    · rename_i hlt
      split
      · exact h
      · refine cellsWf_cons.mpr ⟨fun e' he' => ?_, ‹_›, h⟩
        rcases List.mem_cons.mp he' with rfl | he'
        · exact hlt
        · exact hlt.trans (hgt e' he')
    · split
      · rename_i _ heq
        subst heq
        split
        · exact hrest
        · exact cellsWf_cons.mpr ⟨hgt, ‹_›, hrest⟩
      · refine cellsWf_cons.mpr ⟨fun e' he' => ?_, hv, ih hrest⟩
        rcases mem_cellsSet he' with he' | ⟨rfl, -⟩
        · exact hgt e' he'
        · show k < q; omega

omit [DecidableEq α] in
/-- Two canonical lists that read the same everywhere are the same list. -/
theorem cells_ext {d : α} {m m' : List (Nat × α)} (h : CellsWf d m) (h' : CellsWf d m')
    (hg : ∀ q, cellsGet d m q = cellsGet d m' q) : m = m' := by
  induction m generalizing m' with
  | nil =>
    cases m' with
    | nil => rfl
    | cons e rest => exact absurd (by simpa [cellsGet] using (hg e.1).symm) (cellsWf_cons.mp h').2.1
  | cons e rest ih =>
    obtain ⟨k, v⟩ := e
    obtain ⟨hgt, hv, hrest⟩ := cellsWf_cons.mp h
    cases m' with
    | nil => exact absurd (by simpa [cellsGet] using hg k) hv
    | cons e' rest' =>
      obtain ⟨k', v'⟩ := e'
      obtain ⟨hgt', hv', hrest'⟩ := cellsWf_cons.mp h'
      have low : ∀ {a b : Nat} {w : α} {l l' : List (Nat × α)}, a < b → (∀ e ∈ l', b < e.1) → w ≠ d →
          cellsGet d ((a, w) :: l) a ≠ cellsGet d ((b, v') :: l') a ∧
          cellsGet d ((a, w) :: l) a ≠ cellsGet d ((b, v) :: l') a := by
        intro a b w l l' hab hl' hw
        have : cellsGet d l' a = d := cellsGet_of_forall_gt fun e he => hab.trans (hl' e he)
        simp [cellsGet, hab.ne, this, hw]
      rcases Nat.lt_trichotomy k k' with hlt | rfl | hlt
      · exact absurd (hg k) (low hlt hgt' hv).1
      · have hv_eq : v = v' := by simpa [cellsGet] using hg k
        subst hv_eq
        congr 1
        refine ih hrest hrest' fun q => ?_
        by_cases hq : q = k
        · subst hq; rw [cellsGet_of_forall_gt hgt, cellsGet_of_forall_gt hgt']
        · simpa [cellsGet, hq] using hg q
      · exact absurd (hg k').symm (low hlt hgt hv').2

/-! ### The Row Buffer -/

theorem cellsGet_mem {β : Type} {d : β} {m : List (Nat × β)} {q : Nat} : cellsGet d m q = d ∨ (q, cellsGet d m q) ∈ m := by
  induction m with
  | nil => exact .inl rfl
  | cons e rest ih =>
    simp only [cellsGet]
    split
    · subst q; exact .inr List.mem_cons_self
    · exact ih.imp id (List.mem_cons_of_mem _)

namespace RowBuffer

variable {rb : RowBuffer}

theorem wf_rowAt (h : rb.Wf) (r : Nat) : CellsWf unlistedByte (rb.rowAt r) := by
  rcases cellsGet_mem (d := []) (m := rb.data) (q := r) with h0 | h0
  · rw [RowBuffer.rowAt, h0]; simp [CellsWf]
  · exact h.2.2 _ h0

theorem rowAt_setByte_same (h : rb.Wf) (r k : Nat) (v : Byte) :
    (rb.setByte r k v).rowAt r = cellsSet unlistedByte (rb.rowAt r) k v := cellsGet_cellsSet_same h.2.1

theorem rowAt_setByte_of_ne {r r' : Nat} (k : Nat) (v : Byte) (hr : r' ≠ r) :
    (rb.setByte r k v).rowAt r' = rb.rowAt r' := cellsGet_cellsSet_of_ne hr

/-- A byte reads as it was written. -/
theorem byteAt_setByte_same (h : rb.Wf) (r k : Nat) (v : Byte) : (rb.setByte r k v).byteAt r k = v := by
  rw [byteAt, rowAt_setByte_same h, cellsGet_cellsSet_same (wf_rowAt h r)]

/-- Every other byte reads as before. -/
theorem byteAt_setByte_of_ne (h : rb.Wf) {r k r' k' : Nat} (v : Byte) (hne : ¬ (r' = r ∧ k' = k)) :
    (rb.setByte r k v).byteAt r' k' = rb.byteAt r' k' := by
  by_cases hr : r' = r
  · subst hr
    rw [byteAt, rowAt_setByte_same h, cellsGet_cellsSet_of_ne (fun hk => hne ⟨rfl, hk⟩), byteAt]
  · rw [byteAt, rowAt_setByte_of_ne _ _ hr, byteAt]

@[simp] theorem bitsAt_setByte (r k : Nat) (v : Byte) (r' : Nat) : (rb.setByte r k v).bitsAt r' = rb.bitsAt r' := rfl

/-- A bit-count reads as it was written. -/
theorem bitsAt_setBits_same (h : rb.Wf) (r bits : Nat) : (rb.setBits r bits).bitsAt r = bits :=
  cellsGet_cellsSet_same h.1

/-- Every other bit-count reads as before. -/
theorem bitsAt_setBits_of_ne {r r' : Nat} (bits : Nat) (hr : r' ≠ r) : (rb.setBits r bits).bitsAt r' = rb.bitsAt r' :=
  cellsGet_cellsSet_of_ne hr

@[simp] theorem byteAt_setBits (r bits r' k : Nat) : (rb.setBits r bits).byteAt r' k = rb.byteAt r' k := rfl
@[simp] theorem byteAt_setRows (n r k : Nat) : (rb.setRows n).byteAt r k = rb.byteAt r k := rfl
@[simp] theorem bitsAt_setRows (n r : Nat) : (rb.setRows n).bitsAt r = rb.bitsAt r := rfl

theorem wf_setRows (h : rb.Wf) (n : Nat) : (rb.setRows n).Wf := h

theorem wf_setBits (h : rb.Wf) (r bits : Nat) : (rb.setBits r bits).Wf := ⟨cellsWf_cellsSet r bits h.1, h.2⟩

theorem wf_setByte (h : rb.Wf) (r k : Nat) (v : Byte) : (rb.setByte r k v).Wf := by
  refine ⟨h.1, cellsWf_cellsSet _ _ h.2.1, fun e he => ?_⟩
  rcases mem_cellsSet he with he | ⟨rfl, -⟩
  · exact h.2.2 e he
  · exact cellsWf_cellsSet k v (wf_rowAt h r)

end RowBuffer

/-- The memory of every reset state is canonical. -/
theorem wf_resetOf (g : Config.Geometry) : (State.resetOf g).rb.Wf := by
  simp [State.resetOf, RowBuffer.Wf, CellsWf]

end Sys2Proof.Machine
end

