-- ==== Sys2Proof/Laws/Comparator.lean ====
section
/-! SUPPORT. What the comparator, the counter and the locator can do, said once each. -/

namespace Sys2Proof.Machine

variable {rb : RowBuffer}

theorem launchOk_iff {g : Config.Geometry} :
    launchOk g rb = true ↔ rb.n ≤ g.nrowsMax ∧ ∀ r < rb.n, rb.bitsAt r ≤ 8 * g.rowBytes := by
  simp [launchOk]

/-- Distance 0 is agreement in every compared bit. -/
theorem hd_eq_zero_iff {a b n : Nat} : hd rb a b n = 0 ↔ ∀ k < n, rb.rowBit a k = rb.rowBit b k := by
  simp [hd, List.countP_eq_zero]

/-- Row equality is equal bit-counts and agreement in every meaningful bit. -/
theorem rowEq_iff {a b : Nat} :
    rowEq rb a b = true ↔ rb.bitsAt a = rb.bitsAt b ∧ ∀ k < rb.bitsAt a, rb.rowBit a k = rb.rowBit b k := by
  simp [rowEq, Config.hdMax, hd_eq_zero_iff]

theorem qualifies_iff {i R L : Nat} : qualifies rb i R L = true ↔ rb.bitsAt i = L ∧ R ≤ reps rb i := by
  simp [qualifies, lengthOk, Config.lenMode, vote]

/-- The first index below `n` with a property, as the search over the indexes in ascending order finds it. -/
theorem find_range_eq_some {n : Nat} {p : Nat → Bool} {i : Nat} :
    (List.range n).find? p = some i ↔ i < n ∧ p i = true ∧ ∀ j < i, p j = false := by
  simp [List.find?_range_eq_some]
  tauto

/-- The locator finds exactly the smallest qualifying index. -/
theorem locate_eq_some {R L i : Nat} {hR : 1 ≤ R} :
    locate rb R hR L = some i ↔ i < rb.n ∧ qualifies rb i R L = true ∧ ∀ j < i, qualifies rb j R L = false :=
  find_range_eq_some

/-- The locator fails exactly when no row qualifies. -/
theorem locate_eq_none {R L : Nat} {hR : 1 ≤ R} :
    locate rb R hR L = none ↔ ∀ i < rb.n, qualifies rb i R L = false := by
  simp [locate]

theorem locateFrame_eq_some {i : Nat} : locateFrame rb = some i ↔ i < rb.n ∧
    (rb.bitsAt i = 24 ∧ 5 ≤ reps rb i) ∧ ∀ j < i, qualifies rb j Config.rMin Config.lFrame = false := by
  rw [locateFrame, locate_eq_some, qualifies_iff]; rfl

theorem locateFrame_eq_none :
    locateFrame rb = none ↔ ∀ i < rb.n, qualifies rb i Config.rMin Config.lFrame = false := locate_eq_none

end Sys2Proof.Machine
end

