-- ==== Sys2Proof/Laws/Operands.lean ====
section
/-! SUPPORT. The payload's zero test, and the operand "row `SEL`". -/

namespace Sys2Proof.Machine

variable {s t : State}

/-- The zero test is over every bit of the four bytes. -/
theorem payload_isZero_iff {p : Payload} :
    p.isZero = true ↔ p.b0 = 0x00#8 ∧ p.b1 = 0x00#8 ∧ p.b2 = 0x00#8 ∧ p.b3 = 0x00#8 := by
  simp [Payload.isZero, and_assoc]

theorem withSelRow_of_lt {f : Nat → Host.Outcome State Fault Refusal} (h : s.sel < s.geom.nrowsMax) :
    withSelRow s f = f s.sel := by
  rw [withSelRow, missingRow_eq_none.mpr h]

/-- The one other thing it can do: fault, naming the slot that does not exist. -/
theorem withSelRow_of_ge {f : Nat → Host.Outcome State Fault Refusal} (h : s.geom.nrowsMax ≤ s.sel) :
    withSelRow s f = .fault (.noSuchRow s.sel) := by
  rw [withSelRow, missingRow_of_ge h]

theorem withSelRow_next {f : Nat → Host.Outcome State Fault Refusal} (h : withSelRow s f = .next t) :
    s.sel < s.geom.nrowsMax ∧ f s.sel = .next t := by
  rcases Nat.lt_or_ge s.sel s.geom.nrowsMax with hs | hs
  · exact ⟨hs, (withSelRow_of_lt hs).symm.trans h⟩
  · rw [withSelRow_of_ge hs] at h
    cases h

end Sys2Proof.Machine
end

