-- ==== Sys2Proof/Laws/Exec.lean ====
section
/-! SUPPORT. One inversion lemma per meaning, per move and for the step: what it can do, said once. -/

namespace Sys2Proof.Machine

variable {s t : State}

/-- What an accepted START leaves. -/
theorem execStart_next (h : execStart s = .next t) :
    (isBusy s.st = true ∧ t = s) ∨
    (isResting s.st = true ∧ launchOk s.geom s.rb = true ∧ t = { s with found := false, st := stLocate }) := by
  unfold execStart at h
  split at h
  · cases h; exact .inl ⟨‹_›, rfl⟩
  · split at h
    · split at h <;> cases h
      exact .inr ⟨‹_›, ‹_›, rfl⟩
    · cases h

theorem execLocate_next (h : execLocate s = .next t) : launchOk s.geom s.rb = true ∧
    ((∃ i, locateFrame s.rb = some i ∧ t = { s with sel := i, found := true, st := stVlen }) ∨
     (locateFrame s.rb = none ∧ t = raise .abortLength s)) := by
  unfold execLocate at h
  split at h
  · refine ⟨‹_›, ?_⟩
    split at h <;> cases h
    · exact .inl ⟨_, ‹_›, rfl⟩
    · exact .inr ⟨‹_›, rfl⟩
  · cases h

theorem execVlen_next (h : execVlen s = .next t) :
    (s.rb.bitsAt s.sel = 24 ∧ t = { s with st := stVnz }) ∨ (s.rb.bitsAt s.sel ≠ 24 ∧ t = raise .abortLength s) := by
  obtain ⟨-, h⟩ := withSelRow_next h
  by_cases hb : s.rb.bitsAt s.sel = Config.lFrame
  · rw [if_pos hb] at h; cases h; exact .inl ⟨hb, rfl⟩
  · rw [if_neg hb] at h; cases h; exact .inr ⟨hb, rfl⟩

theorem execVnz_next (h : execVnz s = .next t) :
    ((s.rb.payload s.sel).isZero = true ∧ t = raise .sanityFail s) ∨
    ((s.rb.payload s.sel).isZero = false ∧ t = { s with st := stXfields }) := by
  obtain ⟨-, h⟩ := withSelRow_next h
  by_cases hz : (s.rb.payload s.sel).isZero = true
  · rw [if_pos hz] at h; cases h; exact .inl ⟨hz, rfl⟩
  · rw [if_neg hz] at h; cases h; exact .inr ⟨Bool.eq_false_iff.mpr hz, rfl⟩

theorem execXfields_next (h : execXfields s = .next t) :
    t = { s with evId := xid (s.rb.payload s.sel).b1 (s.rb.payload s.sel).b2, evTamper := xtamper (s.rb.payload s.sel).b0,
                 evBattOk := xbatt (s.rb.payload s.sel).b0, evAlarm := xalarm (s.rb.payload s.sel).b0,
                 st := stEmit } := by
  obtain ⟨-, h⟩ := withSelRow_next h
  cases h
  rfl

/-- A producer write that answers a next state changed the Row Buffer alone, and RRC was not busy. -/
theorem producerWrite_next {missing : Option Fault} {rb' : RowBuffer} (h : producerWrite missing rb' s = .next t) :
    isBusy s.st = false ∧ missing = none ∧ t = { s with rb := rb' } := by
  unfold producerWrite at h
  split at h
  · cases h
  · refine ⟨Bool.eq_false_iff.mpr ‹_›, ?_⟩
    split at h <;> cases h
    exact ⟨rfl, rfl⟩

/-- RRC's turn performs the operation `ST` names. -/
theorem rrcTurn_next (h : rrcTurn s = .next t) : ∃ i, decodeSt s.st = .ok i ∧ exec i s = .next t := by
  unfold rrcTurn at h
  split at h
  · exact ⟨_, ‹_›, h⟩
  · cases h

theorem rrcTurn_of_decode {i : Instr} (h : decodeSt s.st = .ok i) : rrcTurn s = exec i s := by
  simp [rrcTurn, decode, h]

/-- A host write either begins an attempt, or is a START given while busy or no command, and then changes nothing. -/
theorem writeReg_next {num data : Nat} (h : writeReg num data s = .next t) :
    t = s ∨ (isResting s.st = true ∧ launchOk s.geom s.rb = true ∧ t = { s with found := false, st := stLocate }) := by
  unfold writeReg at h
  split at h
  · simp only [decode, decodeCtrl] at h
    by_cases hd : data.testBit 0 = true
    · rw [if_pos hd] at h
      exact (execStart_next h).imp And.right id
    · rw [if_neg hd] at h
      cases h; exact .inl rfl
  · cases h; exact .inl rfl

/-- The five kinds of change one move can make. -/
theorem applyMove_next {m : Move} (h : applyMove m s = .next t) :
    (∃ i, decodeSt s.st = .ok i ∧ exec i s = .next t) ∨ t = applyReset s ∨ t = s ∨
    (isResting s.st = true ∧ launchOk s.geom s.rb = true ∧ t = { s with found := false, st := stLocate }) ∨
    (isBusy s.st = false ∧ ∃ rb', t = { s with rb := rb' } ∧ (s.rb.Wf → rb'.Wf)) := by
  cases m with
  | turn => exact .inl (rrcTurn_next h)
  | reset => cases h; exact .inr (.inl rfl)
  | writeReg num data => exact .inr (.inr ((writeReg_next h).imp id .inl))
  | setRows n =>
    obtain ⟨hb, -, rfl⟩ := producerWrite_next (show producerWrite none _ s = _ from h)
    exact .inr (.inr (.inr (.inr ⟨hb, _, rfl, fun w => RowBuffer.wf_setRows w n⟩)))
  | setBits r bits =>
    obtain ⟨hb, -, rfl⟩ := producerWrite_next (show producerWrite (missingRow s r) _ s = _ from h)
    exact .inr (.inr (.inr (.inr ⟨hb, _, rfl, fun w => RowBuffer.wf_setBits w r bits⟩)))
  | setByte r k v =>
    obtain ⟨hb, -, rfl⟩ := producerWrite_next (show producerWrite (missingByte s r k) _ s = _ from h)
    exact .inr (.inr (.inr (.inr ⟨hb, _, rfl, fun w => RowBuffer.wf_setByte w r k v⟩)))

/-- One step: RRC's operation, or the oldest queued move. -/
theorem step_next (h : step s = .next t) :
    (s.inbox = [] ∧ ∃ i, decodeSt s.st = .ok i ∧ exec i s = .next t) ∨
    (∃ m later, s.inbox = m :: later ∧ applyMove m { s with inbox := later } = .next t) := by
  unfold step takeTurn at h
  split at h
  · exact .inl ⟨‹_›, rrcTurn_next h⟩
  · exact .inr ⟨_, _, ‹_›, h⟩

end Sys2Proof.Machine
end

