-- ==== Sys2Proof/Laws/PerInstr.lean ====
section
/-! SUPPORT. Per instruction: it is well formed, its encoding is, and the decoder reads it back. -/

namespace Sys2Proof.Laws.RoundTrip

def Statement (i : Instr) : Prop := i.wf = true ∧ (encode i).wf = true ∧ decode (encode i) = .ok i

theorem start : Statement .start := by unfold Statement; decide
theorem idle : Statement .idle := by unfold Statement; decide
theorem locate : Statement .locate := by unfold Statement; decide
theorem vlen : Statement .vlen := by unfold Statement; decide
theorem vnz : Statement .vnz := by unfold Statement; decide
theorem xfields : Statement .xfields := by unfold Statement; decide
theorem emit : Statement .emit := by unfold Statement; decide
theorem tSuccess : Statement .tSuccess := by unfold Statement; decide
theorem tAbort : Statement .tAbort := by unfold Statement; decide
theorem tReject : Statement .tReject := by unfold Statement; decide

end Sys2Proof.Laws.RoundTrip
end

