-- ==== Sys2Proof/Laws/Registers.lean ====
section
/-! SUPPORT. The width of `SEL`: what the search for it finds, and that the register's bits hold every row number. When
RRC moves and when the event port is valid. -/

namespace Sys2Proof.Machine

/-- `SEL_W` is wide enough, and no smaller width is (`00_scope.md` R8). -/
theorem selW_spec (g : Config.Geometry) : g.nrowsMax ≤ 2 ^ selW g ∧ ∀ w, g.nrowsMax ≤ 2 ^ w → selW g ≤ w := by
  unfold selW
  cases h : (List.range g.nrowsMax).find? fun w => decide (g.nrowsMax ≤ 2 ^ w) with
  | none =>
    simp only [List.find?_eq_none, List.mem_range, decide_eq_true_eq] at h
    exact ⟨Nat.lt_two_pow_self.le, fun w hw => Nat.le_of_not_lt fun hlt => h w hlt hw⟩
  | some w0 =>
    obtain ⟨-, h0, hmin⟩ := find_range_eq_some.mp h
    exact ⟨of_decide_eq_true h0, fun w hw => Nat.le_of_not_lt fun hlt => of_decide_eq_false (hmin w hlt) hw⟩

/-- A row number that names a slot is what the register's bits hold. -/
theorem selReg_toNat {s : State} (h : s.sel < s.geom.nrowsMax) : (selReg s).toNat = s.sel := by
  rw [selReg, BitVec.toNat_ofNat, Nat.mod_eq_of_lt (h.trans_le (selW_spec s.geom).1)]

theorem rrcMoves_iff {s : State} : rrcMoves s = true ↔ s.inbox = [] ∨ ∃ later, s.inbox = .turn :: later := by
  unfold rrcMoves
  split <;> simp_all

/-- The port is valid exactly where the coming step is RRC's and `ST` is EMIT. -/
theorem evValid_iff {s : State} :
    evValid s = true ↔ s.st = stEmit ∧ (s.inbox = [] ∨ ∃ later, s.inbox = .turn :: later) := by
  simp [evValid, rrcMoves_iff, and_comm]

end Sys2Proof.Machine
end

