-- ==== Sys2Proof/Machine/Scenario.lean ====
section
/-! DEFINITION. The scenario notation of `30_encoding.md` R81, each statement as the moves it stands for. `EXPECT` is a
claim about a state, not a move. -/

namespace Sys2Proof.Machine

/-- The statements and pseudo-statements that move something. -/
inductive Stmt where
  | reset
  | nrows (n : Nat)
  | row (r bits : Nat) (bytes : List Byte)
  | rows (r0 r1 bits : Nat) (bytes : List Byte)
  | start
  | step
  | run
  | decode
  deriving DecidableEq, Repr

/-- `ROW r, bits, h0 … hm`: the bit-count, then each listed byte; other bytes keep what they hold. -/
def rowMoves (r bits : Nat) (bytes : List Byte) : List Move :=
  .setBits r bits :: bytes.zipIdx.map fun e => .setByte r e.2 e.1

/-- `START`: the host writes 1 to `CTRL`. -/
def startMove : Move := .writeReg 0 0x00000001

/-- `RUN`: RRC steps until `BUSY = 0`. Five turns reach a resting state from every busy one (`43_sequencer.md`
R148), and a turn in a resting state changes nothing. -/
def runMoves : List Move := List.replicate 5 .turn

/-- The moves of a statement. -/
def stmtMoves : Stmt → List Move
  | .reset => [.reset]
  | .nrows n => [.setRows n]
  | .row r bits bytes => rowMoves r bits bytes
  | .rows r0 r1 bits bytes => (List.range' r0 (r1 + 1 - r0)).flatMap fun r => rowMoves r bits bytes
  | .start => [startMove]
  | .step => [.turn]
  | .run => runMoves
  | .decode => startMove :: runMoves

/-- The moves of a scenario. -/
def scenarioMoves (p : List Stmt) : List Move := p.flatMap stmtMoves

end Sys2Proof.Machine
end

