-- ==== Sys2Proof/Tests/Slice0.lean ====
section
/-! SUPPORT. The model's own tests: ill-formed terms refused, every code's decoding, the vectors of
`95_test_vectors.md` (each test names its vector), and a witness for the hypotheses of each statement. -/

namespace Sys2Proof.Tests

open Sys2Proof Sys2Proof.Machine
open Host.Outcome (next fault refused)

/-! ### Helpers -/

/-- A buffer of the given rows: bit-count and stored bytes, in order. -/
def buffer (rows : List (Nat × List Byte)) : RowBuffer :=
  rows.zipIdx.foldl
    (fun rb e => e.1.2.zipIdx.foldl (fun rb b => rb.setByte e.2 b.2 b.1) (rb.setBits e.2 e.1.1))
    { n := rows.length, bits := [], data := [] }

/-- The reset state with `ST`, `FOUND`, `SEL` and the buffer given. -/
def state (st : StCode) (found : Bool) (sel : Nat) (rb : RowBuffer) : State :=
  { State.reset with st := st, found := found, sel := sel, rb := rb }

/-- The outcome is a next state with the property. -/
def holds (o : Host.Outcome State Fault Refusal) (p : State → Bool) : Bool :=
  match o with
  | .next t => p t
  | _ => false

/-- The row X of section 2.2 of the vectors, with byte 3 given. -/
def rowX (b3 : Byte) : Nat × List Byte := (24, [0x3A#8, 0x79#8, 0x8C#8, b3])

/-- Five rows of 24 bits with the given bytes. -/
def five (bytes : List Byte) : RowBuffer := buffer (List.replicate 5 (24, bytes))

/-- The buffer of V-LOC-6 and PRG-2. -/
def noisy : RowBuffer :=
  buffer [(24, [0xFF#8, 0xFF#8, 0xFE#8, 0x00#8]), (13, [0x12#8, 0x30#8]), rowX 0, rowX 0,
    (24, [0x3A#8, 0x79#8, 0x8D#8, 0x00#8]), rowX 0, rowX 0, rowX 0]

/-- Queued START. -/
def started (s : State) : State := { s with inbox := [startMove] }

/-! ### Well-formedness: an ill-formed term for each check -/

theorem test_wf_refuses_reserved_code : (Code.st 0x6#4).wf = false ∧ (Code.st 0xB#4).wf = false := by decide
theorem test_wf_refuses_command_with_bit0_clear : (Code.ctrl 0xFFFFFFFE).wf = false := by decide
theorem test_wf_refuses_missing_row : (Move.setBits 16 24).wf Config.resetGeometry = false := by decide
theorem test_wf_refuses_missing_byte : (Move.setByte 15 4 0#8).wf Config.resetGeometry = false := by decide
theorem test_wf_accepts_last_byte : (Move.setByte 15 3 0#8).wf Config.resetGeometry = true := by decide

/-! ### Decoding: each row's word written out bit by bit from the table of `30_encoding.md` R83 -/

theorem test_decode_start : decode (.ctrl 0b1) = .ok .start := by decide
theorem test_decode_idle : decode (.st 0b0000#4) = .ok .idle := by decide
theorem test_decode_locate : decode (.st 0b0001#4) = .ok .locate := by decide
theorem test_decode_vlen : decode (.st 0b0010#4) = .ok .vlen := by decide
theorem test_decode_vnz : decode (.st 0b0011#4) = .ok .vnz := by decide
theorem test_decode_xfields : decode (.st 0b0100#4) = .ok .xfields := by decide
theorem test_decode_emit : decode (.st 0b0101#4) = .ok .emit := by decide
theorem test_decode_t_success : decode (.st 0b1000#4) = .ok .tSuccess := by decide
theorem test_decode_t_abort : decode (.st 0b1001#4) = .ok .tAbort := by decide
theorem test_decode_t_reject : decode (.st 0b1010#4) = .ok .tReject := by decide
theorem test_decode_refuses_reserved : decode (.st 0b0111#4) = .error (.reservedCode 0x7#4) := by decide
theorem test_table_words :
    decodeTableWord 1 1 = some .start ∧ decodeTableWord 32 1 = some .start ∧ decodeTableWord 8 10 = some .tReject ∧
    decodeTableWord 4 1 = some .locate ∧ decodeTableWord 8 6 = none ∧ decodeTableWord 8 16 = none := by decide

/-! ### Comparator and locator -/

/-- V-HD-2, V-HD-4, V-HD-5: distances 1, 3 and 24. -/
theorem test_hd_distances :
    hd (buffer [rowX 0, (24, [0x3A#8, 0x79#8, 0x8D#8])]) 0 1 24 = 1 ∧
    hd (buffer [(24, [0xDA#8, 0x79#8, 0x8C#8]), rowX 0]) 0 1 24 = 3 ∧
    hd (buffer [(24, [0xFF#8, 0xFF#8, 0xFF#8]), (24, [])]) 0 1 24 = 24 := by decide

/-- V-HD-6 to V-HD-10: trailing bits, the meaningful bit of a partial byte, different bit-counts, empty rows. -/
theorem test_rowEq_corners :
    rowEq (buffer [rowX 0, rowX 0xFF#8]) 0 1 = true ∧
    rowEq (buffer [(13, [0x12#8, 0x30#8]), (13, [0x12#8, 0x37#8])]) 0 1 = true ∧
    rowEq (buffer [(13, [0x12#8, 0x30#8]), (13, [0x12#8, 0x38#8])]) 0 1 = false ∧
    rowEq (buffer [rowX 0, (25, [0x3A#8, 0x79#8, 0x8C#8])]) 0 1 = false ∧
    rowEq (buffer [(0, []), (0, [])]) 0 1 = true := by decide

/-- V-LOC-13 to V-LOC-17: R = 1, L = 0, one short, a partial last byte. -/
theorem test_locate_general :
    locate (buffer [(13, [0x12#8]), (24, [1#8, 2#8, 3#8]), (24, [9#8, 9#8, 9#8])]) 1 (by decide) 24 = some 1 ∧
    locate (buffer [(0, []), (24, [1#8, 2#8, 3#8]), (0, []), (0, [])]) 3 (by decide) 0 = some 0 ∧
    locate (buffer [(0, []), (24, [1#8, 2#8, 3#8]), (0, [])]) 3 (by decide) 0 = none ∧
    locate (buffer [(13, [0x12#8, 0x30#8]), (13, [0x12#8, 0x37#8])]) 2 (by decide) 13 = some 0 ∧
    locate (buffer [(13, [0x12#8, 0x30#8]), (13, [0x12#8, 0x38#8])]) 2 (by decide) 13 = none := by decide

/-- V-LOC-6: noise, a short row and a corrupted repeat; the first member of the class at index 2 is chosen. -/
theorem test_locate_found :
    holds (exec .locate (state stLocate false 0 noisy)) (fun t => t.sel == 2 && t.found && t.st == 0x2#4) = true := by
  decide

/-- V-LOC-9, V-LOC-10: full 32-bit rows are not accepted, a longer row is not counted. -/
theorem test_locate_aborts :
    holds (exec .locate (state stLocate false 0 (buffer (List.replicate 8 (32, [0x3A#8, 0x79#8, 0x8C#8])))))
      (fun t => t.sel == 0 && !t.found && t.st == 0x9#4) = true ∧
    holds (exec .locate (state stLocate false 0 (buffer [rowX 0, rowX 0, rowX 0, rowX 0, (25, [0x3A#8, 0x79#8, 0x8C#8])])))
      (fun t => !t.found && t.st == 0x9#4) = true := by decide

/-! ### START and the resting states -/

/-- V-SEQ-2: START from T_SUCCESS clears `FOUND` and the outcome, nothing else. -/
theorem test_start_accepted :
    holds (exec .start { state stSuccess true 2 noisy with evId := 0x798C#16, evAlarm := true, evBattOk := true })
      (fun t => statusReg t == 0x011#10 && t.sel == 2 && t.evId == 0x798C#16 && evFlagsReg t == 0b011#3) = true := by
  decide

/-- V-SEQ-3: START while busy is ignored. -/
theorem test_start_ignored :
    holds (exec .start (state stVnz true 2 noisy)) (fun t => t == state stVnz true 2 noisy && statusReg t == 0x053#10)
      = true := by decide

/-- V-SEQ-4: RRC waits in IDLE, STATUS `0x000`. -/
theorem test_idle_waits : holds (step State.reset) (fun t => t == State.reset && statusReg t == 0x000#10) = true := by
  decide

/-- The terminal states wait, with the STATUS values of section 2.6. -/
theorem test_terminal_states_wait :
    holds (step (state stSuccess true 0 noisy)) (fun t => t == state stSuccess true 0 noisy && statusReg t == 0x168#10)
      = true ∧
    holds (step (state stAbort false 0 noisy)) (fun t => t == state stAbort false 0 noisy && statusReg t == 0x229#10)
      = true ∧
    holds (step (state stReject true 0 noisy)) (fun t => t == state stReject true 0 noisy && statusReg t == 0x36A#10)
      = true := by decide

/-- V-SEQ-9, V-SEQ-10: only bit 0 of the command word counts. -/
theorem test_ctrl_bit0 :
    holds (writeReg 0 0xFFFFFFFE (state stAbort false 0 noisy)) (fun t => t == state stAbort false 0 noisy) = true ∧
    holds (writeReg 0 0xFFFFFFFF (state stAbort false 0 noisy)) (fun t => t.st == 0x1#4) = true := by decide

/-- V-SEQ-7, V-SEQ-8: reset during an attempt, and the constant CFG. -/
theorem test_reset_move :
    holds (step { state stVlen true 2 noisy with inbox := [.reset] })
      (fun t => t.st == 0x0#4 && !t.found && t.sel == 0 && t.rb == noisy && readReg t 5 == 0x041805) = true := by
  decide

/-! ### Validator, extractor, EMIT -/

/-- V-VLEN-1. -/
theorem test_vlen_pass :
    holds (exec .vlen (state stVlen true 0 (buffer [rowX 0]))) (fun t => statusReg t == 0x053#10) = true := by
  decide

/-- V-VLEN-2 and V-VLEN-3. -/
theorem test_vlen_fail :
    holds (exec .vlen (state stVlen true 0 (buffer [(32, [0x3A#8])]))) (fun t => statusReg t == 0x269#10) = true ∧
    holds (exec .vlen (state stVlen true 0 (buffer [(23, [0x3A#8])]))) (fun t => t.st == 0x9#4) = true := by
  decide

/-- V-VNZ-1. -/
theorem test_vnz_rejects :
    holds (exec .vnz (state stVnz true 0 (five [0#8, 0#8, 0#8, 0#8]))) (fun t => statusReg t == 0x36A#10) = true := by
  decide

/-- V-VNZ-4: one trailing bit of the selected row passes. -/
theorem test_vnz_reads_byte3 :
    holds (exec .vnz (state stVnz true 0 (five [0#8, 0#8, 0#8, 1#8]))) (fun t => t.st == 0x4#4) = true := by
  decide

/-- V-SEQ-5: all four event registers in one step. -/
theorem test_xfields_tamper :
    holds (exec .xfields (state stXfields true 0 (five [0xBA#8, 0x79#8, 0x8C#8, 0#8])))
      (fun t => t.evId == 0x798C#16 && evFlagsReg t == 0b111#3 && statusReg t == 0x055#10) = true := by decide

/-- V-X-3 and V-X-7: battery low; every published flag 0. -/
theorem test_xfields_battery :
    holds (exec .xfields (state stXfields true 0 (five [0xDA#8, 0x79#8, 0x8C#8, 0#8])))
      (fun t => evFlagsReg t == 0b100#3 && evData t == 0x3CC64#19) = true ∧
    holds (exec .xfields (state stXfields true 0 (five [0x40#8, 0x12#8, 0x34#8, 0#8])))
      (fun t => evFlagsReg t == 0b000#3 && evData t == 0x091A0#19) = true := by decide

/-- V-SEQ-6: exactly one record, and the port's word `0x3CC67`. -/
theorem test_emit_appends :
    holds (exec .emit { state stEmit true 0 noisy with evId := 0x798C#16, evTamper := true, evAlarm := true, evBattOk := true })
      (fun t => t.evlog.length == 1 && t.evlog.map eventData == [0x3CC67#19] && statusReg t == 0x168#10) = true := by
  decide

/-- PRG-6: with RESET as the move before EMIT the event port is not valid and nothing is emitted; a queued turn of RRC is
the EMIT step. -/
theorem test_event_port_valid_in_emit_only :
    evValid { state stEmit true 0 noisy with inbox := [.reset] } = false ∧
    holds (step { state stEmit true 0 noisy with inbox := [.reset] }) (fun t => t.evlog.length == 0) = true ∧
    evValid { state stEmit true 0 noisy with inbox := [startMove, .turn] } = false ∧
    evValid { state stEmit true 0 noisy with inbox := [.turn] } = true ∧ evValid (state stXfields true 0 noisy) = false := by
  decide

/-- `30_encoding.md` R82: the nine bytes of MODEL. -/
theorem test_model_bytes :
    modelBytes = [0x52#8, 0x6F#8, 0x62#8, 0x6F#8, 0x67#8, 0x75#8, 0x61#8, 0x72#8, 0x64#8] := by decide

/-- The moves of `ROWS`, `NROWS` and `START` (R81). -/
theorem test_scenario_moves :
    scenarioMoves [.rows 0 1 24 [0x3A#8], .nrows 2, .start] =
      [.setBits 0 24, .setByte 0 0 0x3A#8, .setBits 1 24, .setByte 1 0 0x3A#8, .setRows 2, .writeReg 0 1] := by decide

/-! ### Witnesses: a concrete state that meets each statement's hypotheses -/

/-- `00_scope.md` R8: `SEL_W` at, below and above a power of two of row slots. -/
theorem test_selW :
    selW ⟨16, 4, by decide, by decide⟩ = 4 ∧ selW ⟨17, 4, by decide, by decide⟩ = 5 ∧
    selW ⟨8, 4, by decide, by decide⟩ = 3 ∧ selW ⟨5, 4, by decide, by decide⟩ = 3 := by decide

/-- A buffer at the premises' boundary: `NROWS_MAX` rows, bit-counts `8 × ROW_BYTES`. -/
def full : RowBuffer := buffer (List.replicate 16 (32, [0xFF#8]))

/-- A resting state over five good rows, START queued. -/
def ready (bytes : List Byte) : State := started (state stIdle false 0 (five bytes))

theorem launch_five (bytes : List Byte) (st found sel) (h : launchOk Config.resetGeometry (five bytes) = true) :
    LaunchPremises (state st found sel (five bytes)) := launchOk_iff.mp h

/-- The state after LOCATE over five rows X is one of the invariant's. -/
theorem inv_vlen : Inv (state stVlen true 0 (five [0x3A#8, 0x79#8, 0x8C#8, 0#8])) :=
  ⟨by decide, by decide, .vlen, rfl, by decide, rfl, by decide⟩

theorem witness_DecodeEncodeRoundTrip : Instr.start.wf = true ∧ decode (.st 0xA#4) = .ok .tReject := by decide

theorem witness_StepRunsTheOperationStNames :
    State.reset.inbox = [] ∧ decodeSt State.reset.st = .ok .idle ∧
    (state 0x6#4 false 0 noisy).inbox = [] ∧ decodeSt (state 0x6#4 false 0 noisy).st = .error (.reservedCode 0x6#4) := by
  decide

theorem witness_StepRunsTheOldestQueuedMove :
    { State.reset with inbox := [.turn, .reset] }.inbox = .turn :: [.reset] ∧ decodeSt State.reset.st = .ok .idle ∧
    (started State.reset).inbox = .writeReg 0 1 :: [] ∧ 1 % 2 = 1 := by decide

theorem witness_PlacedTableWordRunsNext :
    decodeTableWord 32 3 = some .start ∧ decodeTableWord 4 5 = some .emit ∧ decodeTableWord 8 0 = some .idle := by decide

theorem witness_ResetMoveInEveryState : { State.reset with inbox := [.reset] }.inbox = .reset :: [] := rfl

theorem witness_StartBeginsAnAttempt :
    Resting (state stIdle false 0 full).st ∧ LaunchPremises (state stIdle false 0 full) ∧
    Resting (state stReject true 0 full).st ∧ (state stEmit true 0 full).st = stEmit :=
  ⟨.inl rfl, launchOk_iff.mp (show launchOk Config.resetGeometry full = true by decide), .inr (.inr (.inr rfl)), rfl⟩

theorem witness_StartWhileBusyIsIgnored :
    { state stLocate false 0 noisy with inbox := [.writeReg 0 1] }.inbox = .writeReg 0 1 :: [] ∧
    isBusy (state stLocate false 0 noisy).st = true := ⟨rfl, rfl⟩

theorem witness_RestingStatesWait : State.reset.inbox = [] ∧ Resting State.reset.st := ⟨rfl, .inl rfl⟩

theorem witness_FrameEqualityIsBytesZeroToTwo :
    (buffer [rowX 0, rowX 1#8]).bitsAt 0 = 24 ∧ (buffer [rowX 0, rowX 1#8]).bitsAt 1 = 24 ∧
    rowEq (buffer [rowX 0, rowX 1#8]) 0 1 = true ∧ noisy.bitsAt 0 ≠ noisy.bitsAt 1 ∧
    (buffer [(0, []), (0, [1#8])]).bitsAt 0 = 0 ∧ (buffer [(0, []), (0, [1#8])]).bitsAt 1 = 0 := by decide

theorem witness_RepeatCountCountsTheWholeBuffer :
    1 < noisy.n ∧ (∀ j < noisy.n, j ≠ 1 → rowEq noisy 1 j = false) := by decide

theorem witness_FirstOccurrenceLaw : locate noisy 5 (by decide) 24 = some 2 := by decide

/-- Two buffers that differ in byte 3 of a 24-bit row only have the same content. -/
theorem same_content_trailing : SameContent (buffer [rowX 0]) (buffer [rowX 0xFF#8]) :=
  ⟨rfl, by decide⟩

theorem witness_LocatorReadsOnlyMeaningfulBits :
    SameContent (state stLocate false 0 (buffer [rowX 0])).rb (state stLocate true 3 (buffer [rowX 0xFF#8])).rb ∧
    (state stLocate true 3 (buffer [rowX 0xFF#8])).geom = (state stLocate false 0 (buffer [rowX 0])).geom ∧
    LaunchPremises (state stLocate false 0 (buffer [rowX 0])) ∧
    holds (exec .locate (state stLocate false 0 (buffer [rowX 0]))) (fun _ => true) = true :=
  ⟨same_content_trailing, rfl,
    launchOk_iff.mp (show launchOk Config.resetGeometry (buffer [rowX 0]) = true by decide), by decide⟩

/-- A noise row, then two interleaved classes of 24-bit rows: five rows Y, first at index 1, and six rows X, first at
index 2. -/
def twoClasses : RowBuffer :=
  let y := (24, [0x01#8, 0x02#8, 0x03#8])
  buffer [(13, [0x12#8]), y, rowX 0, rowX 0, y, rowX 0, y, rowX 0, y, rowX 0, y, rowX 0]

/-- R100 (e): the class whose first member has the smaller index wins, although the other is larger. -/
theorem witness_LocatorCornerCases_two_classes :
    qualifies twoClasses 1 5 24 = true ∧ qualifies twoClasses 2 5 24 = true ∧ rowEq twoClasses 1 2 = false ∧
    reps twoClasses 1 = 5 ∧ reps twoClasses 2 = 6 ∧ (∀ k < 1, qualifies twoClasses k 5 24 = false) ∧
    locate twoClasses 5 (by decide) 24 = some 1 ∧ twoClasses.bitsAt 0 ≠ 24 := by decide

theorem witness_LocatorCornerCases :
    (buffer []).n = 0 ∧ (buffer [rowX 0]).n < 2 ∧
    (buffer [(0, []), (0, [])]).bitsAt 0 = 0 ∧
    2 ≤ ((List.range 2).filter fun j => (buffer [(0, []), (0, [])]).bitsAt j == 0).length ∧
    qualifies noisy 2 5 24 = true ∧ qualifies noisy 3 5 24 = true ∧
    (∀ i < noisy.n, noisy.bitsAt i = 13 → reps noisy i < 2) ∧ noisy.bitsAt 1 = 13 ∧ 13 < noisy.bitsAt 0 ∧
    [2, 3, 5, 6, 7].Nodup ∧ (∀ j ∈ [2, 3, 5, 6, 7], j < noisy.n ∧ rowEq noisy 2 j = true) := by decide

theorem witness_LocateSelectsTheFirstQualifyingRow :
    LaunchPremises (state stLocate false 0 noisy) ∧ FirstQualifying noisy 2 ∧
    LaunchPremises (state stLocate false 0 full) ∧ (∀ i < full.n, qualifies full i 5 24 = false) :=
  ⟨launchOk_iff.mp (show launchOk Config.resetGeometry noisy = true by decide), by
    unfold FirstQualifying; decide,
    launchOk_iff.mp (show launchOk Config.resetGeometry full = true by decide), by decide⟩

theorem witness_LocatedRowIsRepeatedFiveTimes :
    holds (exec .locate (state stLocate false 0 noisy)) (fun t => t.st == stVlen) = true := by decide

theorem witness_VlenPassesExactly24Bits :
    (state stVlen true 15 noisy).sel < (state stVlen true 15 noisy).geom.nrowsMax ∧ noisy.bitsAt 15 ≠ 24 ∧
    noisy.bitsAt 2 = 24 := by decide

theorem witness_VlenFailEdgeIsDead :
    Inv (state stVlen true 0 (five [0x3A#8, 0x79#8, 0x8C#8, 0#8])) ∧
    (state stVlen true 0 (five [0x3A#8, 0x79#8, 0x8C#8, 0#8])).st = stVlen := ⟨inv_vlen, rfl⟩

theorem witness_VnzRejectsExactlyAllZero :
    (state stVnz true 0 noisy).sel < (state stVnz true 0 noisy).geom.nrowsMax ∧
    (∀ k < 4, (five [0#8, 0#8, 0#8, 0#8]).byteAt 0 k = 0#8) ∧
    (∃ k < 4, (five [0#8, 0#8, 0#8, 1#8]).byteAt 0 k ≠ 0#8) :=
  ⟨by decide, by decide, ⟨3, by decide⟩⟩

theorem witness_FourthByteDecidesOnlyTheAllZeroCorner :
    locateFrame (five [0#8, 0#8, 0#8, 1#8]) = some 0 ∧ (five [0#8, 0#8, 0#8, 1#8]).Wf ∧
    (five [0#8, 0#8, 0#8, 1#8]).byteAt 0 0 = 0#8 ∧ (five [0#8, 0#8, 0#8, 1#8]).byteAt 0 1 = 0#8 ∧
    (five [0#8, 0#8, 0#8, 1#8]).byteAt 0 2 = 0#8 ∧ (five [0#8, 0#8, 0#8, 1#8]).byteAt 0 3 ≠ 0#8 ∧
    locateFrame (five [0#8, 0#8, 0#8, 0#8]) = some 0 ∧ (five [0#8, 0#8, 0#8, 0#8]).byteAt 0 3 = 0#8 ∧
    locateFrame (five [0#8, 0#8, 1#8, 0#8]) = some 0 ∧ (five [0#8, 0#8, 1#8, 0#8]).byteAt 0 2 ≠ 0#8 := by
  decide

theorem witness_FailureWritesOnlyTheState :
    holds (exec .locate (state stLocate false 0 full)) (fun t => t.st == stAbort) = true ∧
    holds (exec .vlen (state stVlen true 0 full)) (fun t => t.st == stAbort) = true ∧
    holds (exec .vnz (state stVnz true 0 (five []))) (fun t => t.st == stReject) = true := by decide

theorem witness_XfieldsWritesTheFourFields :
    (state stXfields true 15 noisy).sel < (state stXfields true 15 noisy).geom.nrowsMax := by decide

/-- Two XFIELDS from states that differ in `SEL` and in the ignored bits (the status bytes `0x20` and `0x3F` of R126);
and a payload that agrees in bit 7 of byte 0 alone. -/
theorem witness_EventDependsOnItsOwnBitsOnly :
    holds (exec .xfields (state stXfields true 0 (five [0x20#8, 1#8, 2#8, 0#8]))) (fun t => evFlagsReg t == 0b011#3)
      = true ∧
    holds (exec .xfields (state stXfields true 4 (five [0x3F#8, 1#8, 2#8, 9#8]))) (fun t => evFlagsReg t == 0b011#3)
      = true ∧
    0x20#8 &&& 0xE0#8 = 0x3F#8 &&& 0xE0#8 ∧ (0x20#8).getLsbD 7 = (0x40#8).getLsbD 7 ∧
    holds (exec .xfields (state stXfields true 0 (five [0#8, 0#8, 0#8, 1#8]))) (fun t => evFlagsReg t == 0b001#3)
      = true ∧
    (state stXfields true 15 noisy).rb.Wf ∧ (state stXfields true 15 noisy).sel < (state stXfields true 15 noisy).geom.nrowsMax := by
  decide

theorem witness_EmitAppendsTheEvent :
    evValid (state stEmit true 2 noisy) = true ∧ holds (step (state stEmit true 2 noisy)) (fun t => t.evlog.length == 1) = true := by
  decide

theorem witness_RegisterMap : (state stIdle true 15 noisy).sel < (state stIdle true 15 noisy).geom.nrowsMax := by decide

theorem witness_SelWidthHoldsEveryRowNumber :
    holds (exec .locate (state stLocate false 0 noisy)) (fun t => t.st == stVlen && readReg t 2 == 2) = true ∧
    Inv (state stVlen true 0 (five [0x3A#8, 0x79#8, 0x8C#8, 0#8])) ∧ 16 ≤ 2 ^ 4 := ⟨by decide, inv_vlen, by decide⟩

theorem witness_DerivedStatusOfSt :
    isDone 0x5#4 = false ∧ isDone 0x8#4 = true ∧ (Code.st 0xA#4).wf = true := by decide

/-- Each instruction answers a next state from some state: the hypothesis of the frame, of the `FOUND` statement and of
the trace statement. -/
theorem witness_InstructionFrame :
    holds (exec .start (state stIdle false 0 noisy)) (fun _ => true) = true ∧
    holds (exec .locate (state stLocate false 0 noisy)) (fun _ => true) = true ∧
    holds (exec .vlen (state stVlen true 2 noisy)) (fun _ => true) = true ∧
    holds (exec .vnz (state stVnz true 2 noisy)) (fun _ => true) = true ∧
    holds (exec .xfields (state stXfields true 2 noisy)) (fun _ => true) = true ∧
    holds (exec .emit (state stEmit true 2 noisy)) (fun _ => true) = true ∧
    holds (exec .idle State.reset) (fun _ => true) = true ∧
    holds (exec .tSuccess (state stSuccess true 0 noisy)) (fun _ => true) = true ∧
    holds (exec .tAbort (state stAbort false 0 noisy)) (fun _ => true) = true ∧
    holds (exec .tReject (state stReject true 0 noisy)) (fun _ => true) = true := by decide

/-- Both stops are reached: a buffer that breaks P-a, one that breaks P-b, a reserved code, and `SEL` beyond the
slots. -/
theorem witness_InstructionStopsOnlyAsNamed :
    launchOk Config.resetGeometry { n := 17, bits := [], data := [] } = false ∧
    launchOk Config.resetGeometry { n := 1, bits := [(0, 33)], data := [] } = false ∧
    (Code.st (state 0xF#4 false 0 noisy).st).wf = false ∧
    (state stVnz true 16 noisy).geom.nrowsMax ≤ (state stVnz true 16 noisy).sel := by decide

theorem witness_ProducerWriteStoresThereAlone :
    (state stIdle false 0 noisy).rb.Wf ∧ isBusy (state stIdle false 0 noisy).st = false ∧
    15 < (state stIdle false 0 noisy).geom.nrowsMax ∧ 3 < (state stIdle false 0 noisy).geom.rowBytes := by decide

theorem witness_ProducerWriteStops :
    isBusy (state stLocate false 0 noisy).st = true ∧ isBusy (state stAbort false 0 noisy).st = false ∧
    (state stAbort false 0 noisy).geom.nrowsMax ≤ 16 ∧ 0 < (state stAbort false 0 noisy).geom.nrowsMax ∧
    (state stAbort false 0 noisy).geom.rowBytes ≤ 4 := by decide

theorem witness_EveryStepKeepsTheInvariant :
    Inv (state stVlen true 0 (five [0x3A#8, 0x79#8, 0x8C#8, 0#8])) ∧
    holds (step (state stVlen true 0 (five [0x3A#8, 0x79#8, 0x8C#8, 0#8]))) (fun t => t.st == stVnz) = true :=
  ⟨inv_vlen, by decide⟩

/-- A step that answers a next state from a canonical memory, with a producer write queued. -/
theorem witness_EveryStepKeepsMemoryCanonical :
    noisy.Wf ∧
    holds (step { state stIdle false 0 noisy with inbox := [.setByte 0 3 1#8] }) (fun t => t.rb.byteAt 0 3 == 1#8) = true :=
  ⟨by decide, by decide⟩

/-- A step from EMIT: the hypothesis of the EVLOG and reserved-code statements. -/
theorem witness_EvlogGrowsOnlyByEmit :
    holds (step (state stEmit true 2 noisy)) (fun t => t.evlog.length == 1 && t.st == stSuccess) = true := by
  decide

theorem witness_StepIsTheTransitionTable :
    Inv (state stVlen true 0 (five [0x3A#8, 0x79#8, 0x8C#8, 0#8])) ∧
    (state stVlen true 0 (five [0x3A#8, 0x79#8, 0x8C#8, 0#8])).inbox = [] := ⟨inv_vlen, rfl⟩

theorem witness_EveryReadIsInBounds :
    LaunchPremises (state stVlen true 0 (five [0x3A#8, 0x79#8, 0x8C#8, 0#8])) ∧
    0 < (five [0x3A#8, 0x79#8, 0x8C#8, 0#8]).n ∧ 23 < (five [0x3A#8, 0x79#8, 0x8C#8, 0#8]).bitsAt 0 ∧
    Inv (state stVlen true 0 (five [0x3A#8, 0x79#8, 0x8C#8, 0#8])) :=
  ⟨launch_five _ _ _ _ (by decide), by decide, by decide, inv_vlen⟩

theorem witness_RegistersHoldUntilWrittenOrReset :
    holds (step (state stVnz true 2 noisy)) (fun t => t.sel == 2) = true ∧
    ∀ later, (state stVnz true 2 noisy).inbox ≠ .reset :: later := ⟨by decide, fun _ h => by cases h⟩

/-- The hypotheses of the attempt statements, for each of the three outcomes of `decode(RB)`. -/
theorem witness_AttemptAgreesWithDecode :
    Resting (ready []).st ∧ LaunchPremises (ready []) ∧ (ready []).inbox = [.writeReg 0 1] ∧
    attempt (ready []).rb = .sanityFail ∧
    attempt (ready [0x3A#8, 0x79#8, 0x8C#8, 0#8]).rb = .success ⟨"Roboguard", 0x798C#16, false, true, true⟩ ∧
    attempt full = .abortLength :=
  ⟨.inl rfl, launch_five [] stIdle false 0 (by decide), rfl, by decide, by decide,
    by decide⟩

/-- A buffer of five rows whose slot 5 has been written too: the content an attempt depends on is the same. -/
theorem same_rows_beyond_n : SameRows Config.resetGeometry (five []) (((five []).setBits 5 24).setByte 5 0 0xFF#8) :=
  ⟨rfl, by decide⟩

/-- Two machines that differ in `ST`, `FOUND`, `SEL` and beyond `RB.n`. -/
theorem witness_DecodingIsDeterministic_content :
    SameRows (ready []).geom (ready []).rb (((five []).setBits 5 24).setByte 5 0 0xFF#8) ∧
    LaunchPremises (state stReject true 7 (((five []).setBits 5 24).setByte 5 0 0xFF#8)) ∧
    holds (Host.Core.run Sys2Proof.core 6 (started (state stReject true 7 (((five []).setBits 5 24).setByte 5 0 0xFF#8))))
      (fun t => t.st == stReject && t.found && t.sel == 0) = true :=
  ⟨same_rows_beyond_n, launchOk_iff.mp (show launchOk Config.resetGeometry (((five []).setBits 5 24).setByte 5 0 0xFF#8) = true by
    decide), by decide⟩

/-- A run of one attempt in each outcome: the hypothesis `run 6 s = next t` of the determinism, hold and threshold
statements. -/
theorem witness_DecodingIsDeterministic :
    Resting (started (state stReject true 7 (five []))).st ∧ LaunchPremises (started (state stReject true 7 (five []))) ∧
    holds (Host.Core.run Sys2Proof.core 6 (ready [])) (fun t => t.st == stReject && t.found) = true ∧
    holds (Host.Core.run Sys2Proof.core 6 (started (state stReject true 7 (five []))))
      (fun t => t.st == stReject && t.found) = true :=
  ⟨.inr (.inr (.inr rfl)), launch_five [] stReject true 7 (by decide), by decide, by decide⟩

theorem witness_FailedAttemptHoldsTheEventRegisters :
    holds (Host.Core.run Sys2Proof.core 6 (started (state stIdle false 0 full))) (fun t => t.st == stAbort) = true := by
  decide

theorem witness_RepeatThreshold :
    holds (Host.Core.run Sys2Proof.core 6 (ready [0x3A#8, 0x79#8, 0x8C#8, 0#8])) (fun t => t.st == stSuccess) = true ∧
    FiveEqualFrames noisy 2 :=
  ⟨by decide, [2, 3, 5, 6, 7], by decide⟩

theorem witness_FirstFailingCheckDecides :
    (∀ i < full.n, full.bitsAt i ≠ 24 ∨ reps full i < 5) ∧
    (∀ r < (five []).n, (five []).bitsAt r = 24 ∧ ∀ k < 4, (five []).byteAt r k = 0#8) ∧ 5 ≤ (five []).n ∧
    (∀ r < (buffer (List.replicate 4 (24, []))).n, (buffer (List.replicate 4 (24, []))).bitsAt r = 24 ∧
      ∀ k < 4, (buffer (List.replicate 4 (24, []))).byteAt r k = 0#8) ∧ (buffer (List.replicate 4 (24, []))).n ≤ 4 := by
  decide

end Sys2Proof.Tests
end

section
/-! SUPPORT. The queue and the host's command: which move a step performs, and when a write to `CTRL` is START. -/

namespace Sys2Proof.Machine

/-- A step with moves queued takes the oldest off the queue and performs it (log entry 2). -/
theorem step_of_inbox_cons {s : State} {m : Move} {later : List Move} (h : s.inbox = m :: later) :
    step s = applyMove m { s with inbox := later } := by
  simp [step, takeTurn, h]

/-- Data with bit 0 set is the command word of START, whatever its other bits are (`30_encoding.md` R77). -/
theorem decode_ctrl_of_odd {d : Nat} (h : d % 2 = 1) : decode (.ctrl d) = .ok .start := by
  simp [decode, decodeCtrl, Nat.testBit_zero, h]

/-- `10_state.md` R33: such a write to `CTRL` performs START. -/
theorem writeReg_ctrl_of_odd (s : State) {d : Nat} (h : d % 2 = 1) : writeReg 0 d s = exec .start s := by
  simp [writeReg, decode_ctrl_of_odd h]

/-- Settles O4: `step` off a non-empty queue is `applyMove`, whose turn decodes `ST` and whose `CTRL` write decodes to
START. -/
theorem stepRunsTheOldestQueuedMove : Obligations.StepRunsTheOldestQueuedMove := by
  intro s m later hq
  have hstep := step_of_inbox_cons hq
  refine ⟨hstep, ?turn, ?command⟩
  case turn =>
    rintro i rfl hi
    exact hstep.trans (rrcTurn_of_decode hi)
  case command =>
    rintro d rfl hd
    exact hstep.trans (writeReg_ctrl_of_odd _ hd)

end Sys2Proof.Machine
end

section
/-! SUPPORT. `SEL` as LOCATE writes it and as the host reads it. -/

namespace Sys2Proof.Machine

/-- The host reads register 2 as the bits of `SEL` (`10_state.md` R32). -/
@[simp] theorem readReg_two (s : State) : readReg s 2 = (selReg s).toNat := rfl

/-- A row the locator finds in a legal buffer is a slot of the build (launch premise P-a,
`70_reset_and_hazards.md` R194). -/
theorem locateFrame_lt_nrowsMax {g : Config.Geometry} {rb : RowBuffer} {i : Nat} (hl : launchOk g rb = true)
    (hi : locateFrame rb = some i) : i < g.nrowsMax :=
  (locateFrame_eq_some.mp hi).1.trans_le (launchOk_iff.mp hl).1

/-- Where LOCATE finds a row, the `SEL` it writes names a slot of the build, which is still the build it began in. -/
theorem execLocate_sel_lt {s t : State} (h : execLocate s = .next t) (hv : t.st = stVlen) :
    t.sel < s.geom.nrowsMax ∧ t.geom = s.geom := by
  obtain ⟨hl, ⟨i, hi, rfl⟩ | ⟨-, rfl⟩⟩ := execLocate_next h
  · exact ⟨locateFrame_lt_nrowsMax hl hi, rfl⟩
  · simp at hv

/-- Settles O56: R8's constraints are the build's own, the width is what its search finds (`selW_spec`), and a `SEL`
below `NROWS_MAX` (LOCATE's by `execLocate_sel_lt`, the invariant's by its clause `sel`) is what its bits hold. -/
theorem selWidthHoldsEveryRowNumber : Obligations.SelWidthHoldsEveryRowNumber := by
  refine ⟨fun g => ⟨five_le_nrowsMax g, four_le_rowBytes g, selW_spec g⟩, ?written, ?read⟩
  case written =>
    intro s t h hv
    obtain ⟨hsel, hgeom⟩ := execLocate_sel_lt h hv
    exact ⟨hsel, selReg_toNat (hgeom ▸ hsel)⟩
  case read =>
    intro s hs
    have hsel := selReg_toNat hs.sel
    exact ⟨hsel, (readReg_two s).trans hsel⟩

end Sys2Proof.Machine
end

section
/-! SUPPORT. What one instruction leaves as it was, and what one step does: RRC's operation, a reset, or a move of the
environment that no register but `ST` and `FOUND` shows. -/

namespace Sys2Proof.Machine

variable {s t : State}

/-- What instruction `i` may not change on the way from `s` to `t` (`43_sequencer.md` R155, `20_memory.md` R57): the Row
Buffer, the build, the queue, and each register of which it is not a writer. -/
structure InstrFrame (i : Instr) (s t : State) : Prop where
  rb : t.rb = s.rb
  geom : t.geom = s.geom
  inbox : t.inbox = s.inbox
  found : i ≠ .start → i ≠ .locate → t.found = s.found
  sel : i ≠ .locate → t.sel = s.sel
  events : i ≠ .xfields →
    t.evId = s.evId ∧ t.evTamper = s.evTamper ∧ t.evAlarm = s.evAlarm ∧ t.evBattOk = s.evBattOk
  evlog : i ≠ .emit → t.evlog = s.evlog

/-- A write of `ST` alone is within the frame of every instruction. -/
theorem instrFrame_of_writes_st (i : Instr) (s : State) (c : StCode) : InstrFrame i s { s with st := c } := by
  constructor <;> simp

/-- Every instruction keeps to its frame. -/
theorem exec_frame {i : Instr} (h : exec i s = .next t) : InstrFrame i s t := by
  cases i with
  | start =>
    obtain ⟨-, rfl⟩ | ⟨-, -, rfl⟩ := execStart_next h
    · exact instrFrame_of_writes_st _ _ _
    · constructor <;> simp
  | locate =>
    obtain ⟨-, ⟨i0, -, rfl⟩ | ⟨-, rfl⟩⟩ := execLocate_next h
    · constructor <;> simp
    · exact instrFrame_of_writes_st _ _ _
  | vlen => obtain ⟨-, rfl⟩ | ⟨-, rfl⟩ := execVlen_next h <;> exact instrFrame_of_writes_st _ _ _
  | vnz => obtain ⟨-, rfl⟩ | ⟨-, rfl⟩ := execVnz_next h <;> exact instrFrame_of_writes_st _ _ _
  | xfields => obtain rfl := execXfields_next h; constructor <;> simp
  | emit => cases h; constructor <;> simp
  | idle | tSuccess | tAbort | tReject => cases h; exact instrFrame_of_writes_st _ _ _

/-- A LOCATE that leaves `ST` elsewhere than at VLEN found no row, and left `FOUND` and `SEL` alone. -/
theorem execLocate_holds_of_ne_vlen (h : execLocate s = .next t) (hv : t.st ≠ stVlen) :
    t.found = s.found ∧ t.sel = s.sel := by
  obtain ⟨-, ⟨i, -, rfl⟩ | ⟨-, rfl⟩⟩ := execLocate_next h
  · exact absurd rfl hv
  · exact ⟨rfl, rfl⟩

/-- A move that is neither RRC's turn nor a reset writes `ST`, `FOUND` and the Row Buffer at most. -/
theorem applyMove_next_of_environment {m : Move} (h : applyMove m s = .next t) (hturn : m ≠ .turn)
    (hreset : m ≠ .reset) :
    ∃ c b rb', t = { s with st := c, found := b, rb := rb' } ∧ (s.rb.Wf → rb'.Wf) := by
  cases m with
  | turn => exact absurd rfl hturn
  | reset => exact absurd rfl hreset
  | writeReg num data =>
    obtain rfl | ⟨-, -, rfl⟩ := writeReg_next (show writeReg num data s = _ from h) <;> exact ⟨_, _, _, rfl, id⟩
  | setRows n =>
    obtain ⟨-, -, rfl⟩ := producerWrite_next (show producerWrite none _ s = _ from h)
    exact ⟨_, _, _, rfl, fun w => RowBuffer.wf_setRows w n⟩
  | setBits r bits =>
    obtain ⟨-, -, rfl⟩ := producerWrite_next (show producerWrite (missingRow s r) _ s = _ from h)
    exact ⟨_, _, _, rfl, fun w => RowBuffer.wf_setBits w r bits⟩
  | setByte r k v =>
    obtain ⟨-, -, rfl⟩ := producerWrite_next (show producerWrite (missingByte s r k) _ s = _ from h)
    exact ⟨_, _, _, rfl, fun w => RowBuffer.wf_setByte w r k v⟩

/-- What one step does, by who moves: RRC performs the operation `ST` names, a reset is applied, or the environment
writes `ST`, `FOUND` and the Row Buffer at most. The move performed is off the queue. -/
theorem step_next_by_agent (h : step s = .next t) :
    (∃ i, decodeSt s.st = .ok i ∧ exec i { s with inbox := s.inbox.tail } = .next t) ∨
    (∃ later, s.inbox = .reset :: later ∧ t = applyReset { s with inbox := later }) ∨
    (∃ c b rb', t = { s with st := c, found := b, rb := rb', inbox := s.inbox.tail } ∧ (s.rb.Wf → rb'.Wf)) := by
  obtain ⟨hq, i, hi, hx⟩ | ⟨m, later, hq, hm⟩ := step_next h
  · exact .inl ⟨i, hi, by rwa [show s.inbox.tail = s.inbox by simp [hq]]⟩
  · rw [show s.inbox.tail = later by simp [hq]]
    by_cases hturn : m = .turn
    · subst hturn
      exact .inl (rrcTurn_next hm)
    by_cases hreset : m = .reset
    · subst hreset
      cases hm
      exact .inr (.inl ⟨later, hq, rfl⟩)
    · exact .inr (.inr (applyMove_next_of_environment hm hturn hreset))

/-- Settles O43: an instruction and a reset leave the Row Buffer, the environment's writes keep its canonical form, and
nobody writes the build. -/
theorem everyStepKeepsMemoryCanonical : Obligations.EveryStepKeepsMemoryCanonical := by
  intro s t h
  obtain ⟨i, -, hx⟩ | ⟨later, -, rfl⟩ | ⟨c, b, rb', rfl, hwf⟩ := step_next_by_agent h
  · have hf := exec_frame hx
    exact ⟨fun hwf => hf.rb ▸ hwf, hf.geom⟩
  · exact ⟨id, rfl⟩
  · exact ⟨hwf, rfl⟩

/-- Settles O46: of RRC's operations EMIT alone writes `EVLOG` (`exec_frame`), and only `ST` at EMIT names it. -/
theorem evlogGrowsOnlyByEmit : Obligations.EvlogGrowsOnlyByEmit := by
  intro s t h
  obtain ⟨i, hi, hx⟩ | ⟨later, -, rfl⟩ | ⟨c, b, rb', rfl, -⟩ := step_next_by_agent h
  · by_cases he : i = .emit
    · subst he
      have hst : .st stEmit = Code.st s.st := encode_of_decodeSt hi
      refine .inr ⟨(Code.st.inj hst).symm, hx, ?_⟩
      cases hx
      exact ⟨rfl, rfl⟩
    · exact .inl ((exec_frame hx).evlog he)
  · exact .inl rfl
  · exact .inl rfl

/-- Settles O48: without a reset only RRC's operations write these registers, `SEL` a LOCATE that ends in VLEN and the
event registers XFIELDS, which ends in EMIT. -/
theorem registersHoldUntilWrittenOrReset : Obligations.RegistersHoldUntilWrittenOrReset := by
  intro s t h hreset
  obtain ⟨i, hi, hx⟩ | ⟨later, hq, -⟩ | ⟨c, b, rb', rfl, -⟩ := step_next_by_agent h
  · have hcode := encode_of_decodeSt hi
    have hf := exec_frame hx
    refine ⟨fun hsel => ?sel, fun hev => ?events⟩
    case sel =>
      by_cases hl : i = .locate
      · subst hl
        have hst : s.st = stLocate := (Code.st.inj hcode).symm
        exact (execLocate_holds_of_ne_vlen hx fun hv => hsel ⟨hst, hv⟩).2
      · exact hf.sel hl
    case events =>
      refine hf.events ?_
      rintro rfl
      have hst : s.st = stXfields := (Code.st.inj hcode).symm
      obtain rfl := execXfields_next hx
      exact hev ⟨hst, rfl⟩
  · exact absurd hq (hreset later)
  · exact ⟨fun _ => rfl, fun _ => ⟨rfl, rfl, rfl, rfl⟩⟩

end Sys2Proof.Machine
end

section
/-! SUPPORT. `FOUND`: who writes it, and that no instruction reads it. -/

namespace Sys2Proof.Machine

variable {s t : State}

theorem execStart_of_isBusy (h : isBusy s.st = true) : execStart s = .next s := if_pos h

/-- An accepted START (`43_sequencer.md` R141). -/
theorem execStart_of_isResting (h : isResting s.st = true) (hl : launchOk s.geom s.rb = true) :
    execStart s = .next { s with found := false, st := stLocate } := by
  simp [execStart, isBusy_of_isResting h, h, hl]

theorem execLocate_of_some {i : Nat} (hl : launchOk s.geom s.rb = true) (hi : locateFrame s.rb = some i) :
    execLocate s = .next { s with sel := i, found := true, st := stVlen } := by
  simp [execLocate, hl, hi]

theorem execLocate_of_none (hl : launchOk s.geom s.rb = true) (hi : locateFrame s.rb = none) :
    execLocate s = .next (raise .abortLength s) := by
  simp [execLocate, hl, hi]

/-! VLEN, VNZ and XFIELDS where `SEL` names a row slot. -/

theorem execVlen_of_bits_eq (h : s.sel < s.geom.nrowsMax) (hb : s.rb.bitsAt s.sel = Config.lFrame) :
    execVlen s = .next { s with st := stVnz } := (withSelRow_of_lt h).trans (if_pos hb)

theorem execVlen_of_bits_ne (h : s.sel < s.geom.nrowsMax) (hb : s.rb.bitsAt s.sel ≠ Config.lFrame) :
    execVlen s = .next (raise .abortLength s) := (withSelRow_of_lt h).trans (if_neg hb)

theorem execVnz_of_isZero (h : s.sel < s.geom.nrowsMax) (hz : (s.rb.payload s.sel).isZero = true) :
    execVnz s = .next (raise .sanityFail s) := (withSelRow_of_lt h).trans (if_pos hz)

theorem execVnz_of_not_isZero (h : s.sel < s.geom.nrowsMax) (hz : (s.rb.payload s.sel).isZero = false) :
    execVnz s = .next { s with st := stXfields } := (withSelRow_of_lt h).trans (if_neg (Bool.eq_false_iff.mp hz))

theorem execXfields_of_sel_lt (h : s.sel < s.geom.nrowsMax) :
    execXfields s = .next
      { s with evId := xid (s.rb.payload s.sel).b1 (s.rb.payload s.sel).b2,
               evTamper := xtamper (s.rb.payload s.sel).b0, evBattOk := xbatt (s.rb.payload s.sel).b0,
               evAlarm := xalarm (s.rb.payload s.sel).b0, st := stEmit } := withSelRow_of_lt h

/-- No instruction reads `FOUND`: with another value in it beforehand the instruction answers the same next state but in
`FOUND`. -/
theorem exec_ignores_found {i : Instr} (h : exec i s = .next t) (b : Bool) :
    ∃ b', exec i { s with found := b } = .next { t with found := b' } := by
  cases i with
  | start =>
    obtain ⟨hb, rfl⟩ | ⟨hr, hl, rfl⟩ := execStart_next h
    · exact ⟨b, execStart_of_isBusy hb⟩
    · exact ⟨false, execStart_of_isResting hr hl⟩
  | locate =>
    obtain ⟨hl, ⟨i0, hi, rfl⟩ | ⟨hi, rfl⟩⟩ := execLocate_next h
    · exact ⟨true, execLocate_of_some hl hi⟩
    · exact ⟨b, execLocate_of_none hl hi⟩
  | vlen =>
    have hsel := (withSelRow_next (show execVlen s = _ from h)).1
    obtain ⟨hbits, rfl⟩ | ⟨hbits, rfl⟩ := execVlen_next h
    · exact ⟨b, execVlen_of_bits_eq hsel hbits⟩
    · exact ⟨b, execVlen_of_bits_ne hsel hbits⟩
  | vnz =>
    have hsel := (withSelRow_next (show execVnz s = _ from h)).1
    obtain ⟨hz, rfl⟩ | ⟨hz, rfl⟩ := execVnz_next h
    · exact ⟨b, execVnz_of_isZero hsel hz⟩
    · exact ⟨b, execVnz_of_not_isZero hsel hz⟩
  | xfields =>
    have hsel := (withSelRow_next (show execXfields s = _ from h)).1
    obtain rfl := execXfields_next h
    exact ⟨b, execXfields_of_sel_lt hsel⟩
  | emit | idle | tSuccess | tAbort | tReject => cases h; exact ⟨b, rfl⟩

/-- Settles O37: the two writers by their inversion lemmas, the others by their frame, the reads by
`exec_ignores_found`. -/
theorem foundIsWrittenByStartAndLocateAndReadByNone : Obligations.FoundIsWrittenByStartAndLocateAndReadByNone := by
  intro i s t h
  refine ⟨?start, ?located, ?notLocated, (exec_frame h).found, fun b => ?reads⟩
  case start =>
    rintro rfl hidle
    obtain ⟨hbusy, -⟩ | ⟨-, -, rfl⟩ := execStart_next h
    · simp [hidle] at hbusy
    · rfl
  case located =>
    rintro rfl hv
    obtain ⟨-, ⟨i0, -, rfl⟩ | ⟨-, rfl⟩⟩ := execLocate_next h
    · rfl
    · simp at hv
  case notLocated =>
    rintro rfl hv
    exact execLocate_holds_of_ne_vlen h hv
  case reads =>
    obtain ⟨b', hb'⟩ := exec_ignores_found h b
    exact ⟨_, hb', rfl⟩

end Sys2Proof.Machine
end

section
/-! SUPPORT. The host's view: the derived status, the registers as numbers, writes to `REG`, and the reset state. -/

namespace Sys2Proof.Machine

/-- A host write whose data has bit 0 clear is no command (`30_encoding.md` R77). -/
theorem writeReg_ctrl_of_even (s : State) {d : Nat} (h : d % 2 = 0) : writeReg 0 d s = .next s := by
  simp [writeReg, decode, decodeCtrl, Nat.testBit_zero, h]

/-- A write to a register other than `CTRL` is ignored (`10_state.md` R32). -/
theorem writeReg_of_ne_ctrl (s : State) {num : Nat} (data : Nat) (h : num ≠ 0) : writeReg num data s = .next s :=
  if_neg h

@[simp] theorem readReg_ctrl (s : State) : readReg s 0 = 0 := rfl

/-- Settles O6: bit 0 of the data is what makes a write to `CTRL` decode to START. -/
theorem hostWriteIsStartOrIgnored : Obligations.HostWriteIsStartOrIgnored := by
  intro s num data
  refine ⟨?start, ?noCommand, writeReg_of_ne_ctrl s data, readReg_ctrl s⟩
  case start => rintro rfl hodd; exact writeReg_ctrl_of_odd s hodd
  case noCommand => rintro rfl heven; exact writeReg_ctrl_of_even s heven

/-- `CFG` is the constant of `10_state.md` R36. -/
theorem cfgReg_toNat : cfgReg.toNat = 0x041805 := by decide

theorem statusReg_resetOf (g : Config.Geometry) : statusReg (State.resetOf g) = 0x000#10 := by
  simp [statusReg, State.resetOf, isBusy, isDone, resultOf, resultCode]

theorem evFlagsReg_resetOf (g : Config.Geometry) : evFlagsReg (State.resetOf g) = 0b000#3 := by
  simp [evFlagsReg, State.resetOf]

/-- Settles O7: the reset state of every build holds literals, of which the derived values are computed. -/
theorem resetStateValues : Obligations.ResetStateValues :=
  ⟨⟨_, rfl⟩, fun g => ⟨rfl, rfl, rfl, rfl, rfl, rfl, rfl, rfl, rfl, rfl, statusReg_resetOf g, evFlagsReg_resetOf g,
    cfgReg_toNat, rfl⟩⟩

theorem inv_resetOf (g : Config.Geometry) : Inv (State.resetOf g) where
  mem := wf_resetOf g
  sel := Nat.lt_of_lt_of_le (Nat.zero_lt_succ 4) (five_le_nrowsMax g)
  phase := ⟨.idle, decodeSt_idle, rfl⟩

/-- Settles O42: in the reset state `ST` is IDLE, which asks for `FOUND` = 0, and `SEL` = 0 names a slot of every
build. -/
theorem invariantHoldsAtReset : Obligations.InvariantHoldsAtReset := ⟨inv_resetOf _, inv_resetOf⟩

/-- Settles O33, by the table of the sixteen codes. -/
theorem derivedStatusOfSt : Obligations.DerivedStatusOfSt := by
  unfold Obligations.DerivedStatusOfSt
  decide

/-- The number an appended vector holds: the low part in its `n` bits, the high part above them. -/
theorem toNat_append_eq_mul_add {m n : Nat} (x : BitVec m) (y : BitVec n) :
    (x ++ y).toNat = x.toNat * 2 ^ n + y.toNat := by
  rw [BitVec.toNat_append, ← Nat.shiftLeft_add_eq_or_of_lt y.isLt, Nat.shiftLeft_eq]

/-- Settles O34: each appended field is a digit of the sum. -/
theorem statusRegisterLayout : Obligations.StatusRegisterLayout := by
  intro s
  simp only [statusReg, toNat_append_eq_mul_add, BitVec.toNat_ofBool, BitVec.toNat_ofNat]
  omega

theorem evFlagsReg_toNat (s : State) :
    (evFlagsReg s).toNat = 4 * s.evTamper.toNat + 2 * s.evAlarm.toNat + s.evBattOk.toNat := by
  simp only [evFlagsReg, toNat_append_eq_mul_add, BitVec.toNat_ofBool]
  omega

/-- No register has a number from 6 up, and the host reads 0 there (`10_state.md` R32). -/
theorem readReg_of_six_le (s : State) {num : Nat} (h : 6 ≤ num) : readReg s num = 0 := by
  unfold readReg
  split <;> omega

/-- Settles O35: the map's rows are `readReg`'s; `SEL` is read in its `SEL_W` bits, which hold every row number
(`selReg_toNat`). -/
theorem registerMap : Obligations.RegisterMap := fun s _ data =>
  ⟨readReg_ctrl s, rfl, readReg_two s, rfl, (selReg s).isLt, selReg_toNat, evFlagsReg_toNat s, cfgReg_toNat,
    readReg_of_six_le s, writeReg_of_ne_ctrl s data⟩

end Sys2Proof.Machine
end

section
/-! SUPPORT. The Row Buffer's side of RRC: the order of a row's bits, the producer's writes, and that every read is of a
location that exists (`20_memory.md`). -/

namespace Sys2Proof.Machine

variable {s : State} {missing : Option Fault} {rb' : RowBuffer}

/-! ### The producer's writes -/

/-- A producer write while RRC is busy is refused (`20_memory.md` R67; log entry 6). -/
theorem producerWrite_of_isBusy (h : isBusy s.st = true) :
    producerWrite missing rb' s = .refused .producerWriteWhileBusy := if_pos h

/-- A producer write to a location that does not exist faults (log entry 13). -/
theorem producerWrite_of_missing {f : Fault} (h : isBusy s.st = false) (hm : missing = some f) :
    producerWrite missing rb' s = .fault f := by
  simp [producerWrite, h, hm]

/-- A producer write to a location that exists replaces the Row Buffer and nothing else. -/
theorem producerWrite_of_exists (h : isBusy s.st = false) (hm : missing = none) :
    producerWrite missing rb' s = .next { s with rb := rb' } := by
  simp [producerWrite, h, hm]

/-- Settles O39: each write is accepted (`producerWrite_of_exists`), and what its Row Buffer reads is the laws of
`cellsSet` over a canonical list. -/
theorem producerWriteStoresThereAlone : Obligations.ProducerWriteStoresThereAlone := by
  intro s hwf hidle
  refine ⟨fun n => ?rows, fun r bits hr => ?bitCount, fun r k v hr hk => ?byte⟩
  case rows =>
    exact ⟨_, producerWrite_of_exists hidle rfl, rfl, setRows_n .., setRows_bits .., setRows_data ..⟩
  case bitCount =>
    exact ⟨_, producerWrite_of_exists hidle (missingRow_eq_none.mpr hr), rfl, RowBuffer.bitsAt_setBits_same hwf r bits,
      fun _ hne => RowBuffer.bitsAt_setBits_of_ne bits hne, setBits_n .., setBits_data ..⟩
  case byte =>
    exact ⟨_, producerWrite_of_exists hidle (missingByte_eq_none.mpr ⟨hr, hk⟩), rfl,
      RowBuffer.byteAt_setByte_same hwf r k v, fun _ _ hne => RowBuffer.byteAt_setByte_of_ne hwf v hne, setByte_n ..,
      setByte_bits ..⟩

/-- Settles O40: `BUSY` is looked at before the location, and the row before the byte. -/
theorem producerWriteStops : Obligations.ProducerWriteStops := by
  intro s n r bits k v
  refine ⟨fun hbusy => ?busy, fun hidle hr => ?noRow, fun hidle hr hk => ?noByte⟩
  case busy => simp only [applyMove, producerWrite_of_isBusy hbusy, and_self]
  case noRow =>
    exact ⟨producerWrite_of_missing hidle (missingRow_of_ge hr),
      producerWrite_of_missing hidle (missingByte_of_row_ge hr k)⟩
  case noByte => exact producerWrite_of_missing hidle (missingByte_of_byte_ge hr hk)

/-! ### The order of a row's bits -/

/-- Settles O12: `rowBit` tests one bit of one byte, and for `k < 8` the bits `k`, `8 + k` and `16 + k` lie at place `k`
of bytes 0, 1 and 2. -/
theorem rowBitsAreMostSignificantFirst : Obligations.RowBitsAreMostSignificantFirst := by
  intro rb r k
  refine ⟨?formula, fun hk => ?bytes⟩
  case formula =>
    rw [RowBuffer.rowBit, ← BitVec.testBit_toNat, Nat.toNat_testBit, Nat.and_one_is_mod, Nat.shiftRight_eq_div_pow]
  case bytes =>
    have hdiv (b : Nat) : (8 * b + k) / 8 = b := by omega
    have hmod (b : Nat) : (8 * b + k) % 8 = k := by omega
    have hbit (b : Nat) : rb.rowBit r (8 * b + k) = (rb.byteAt r b).getLsbD (7 - k) := by
      rw [RowBuffer.rowBit, hdiv, hmod]
    exact ⟨by simpa using hbit 0, hbit 1, hbit 2⟩

/-! ### The reads -/

/-- The bit-count of a row slot that exists is read in bounds. -/
theorem bitsRead_of_lt {r : Nat} (hr : r < s.geom.nrowsMax) : bitsRead s r = .ok (s.rb.bitsAt r) := by
  rw [bitsRead, missingRow_eq_none.mpr hr]

/-- A byte that exists is read in bounds. -/
theorem memRead_of_lt {r k : Nat} (hr : r < s.geom.nrowsMax) (hk : k < s.geom.rowBytes) :
    memRead s r k = .ok (s.rb.byteAt r k) := by
  rw [memRead, missingByte_eq_none.mpr ⟨hr, hk⟩]

/-- From VLEN to EMIT the locator's row is held (`40_comparator_locator.md` R97). -/
theorem rowHeld_of_located (h : Inv s) (hst : s.st = stVlen ∨ s.st = stVnz ∨ s.st = stXfields ∨ s.st = stEmit) :
    RowHeld s := by
  obtain ⟨i, hi, hphase⟩ := h.phase
  obtain hst | hst | hst | hst := hst <;> rw [hst] at hi <;> cases hi
  case inl | inr.inl => exact hphase
  case inr.inr.inl | inr.inr.inr => exact hphase.1

/-- Settles O47: P-a puts each row below `RB.n` in a slot and P-b each of its meaningful bits in a byte of the slot;
`SEL` names a slot by the invariant, and from VLEN to EMIT the row the locator found. -/
theorem everyReadIsInBounds : Obligations.EveryReadIsInBounds := by
  rintro s ⟨hrows, hbits⟩
  refine ⟨fun r hr => ?row, fun hinv k hk => memRead_payload hinv.sel hk, fun hinv hst => ?located⟩
  case row =>
    have hslot : r < s.geom.nrowsMax := hr.trans_le hrows
    refine ⟨bitsRead_of_lt hslot, fun k hk => memRead_of_lt hslot ?_⟩
    exact Nat.div_lt_of_lt_mul (hk.trans_le (hbits r hr))
  case located =>
    obtain ⟨-, -, hfound⟩ := rowHeld_of_located hinv hst
    exact (locateFrame_eq_some.mp hfound).1

end Sys2Proof.Machine
end

section
/-! SUPPORT. The encodings: which decode, what a placed one makes the next step do, and which `ST` codes a step writes
(`30_encoding.md`). -/

namespace Sys2Proof.Machine

variable {s t : State} {c : StCode} {d : Nat} {i : Instr} {w : Code}

/-! ### Decoder and encoder -/

/-- The per-instruction laws of the encoder, for every instruction. -/
theorem encode_roundTrip (i : Instr) : Laws.RoundTrip.Statement i :=
  match i with
  | .start => Laws.RoundTrip.start
  | .idle => Laws.RoundTrip.idle
  | .locate => Laws.RoundTrip.locate
  | .vlen => Laws.RoundTrip.vlen
  | .vnz => Laws.RoundTrip.vnz
  | .xfields => Laws.RoundTrip.xfields
  | .emit => Laws.RoundTrip.emit
  | .tSuccess => Laws.RoundTrip.tSuccess
  | .tAbort => Laws.RoundTrip.tAbort
  | .tReject => Laws.RoundTrip.tReject

/-- A command word names START or nothing (`30_encoding.md` R77). -/
theorem decode_ctrl_eq_ok : decode (.ctrl d) = .ok i ↔ d.testBit 0 = true ∧ i = .start := by
  by_cases hd : d.testBit 0 = true <;> simp [decode, decodeCtrl, hd, eq_comm]

/-- No `ST` code names START: its encoding is in the other format. -/
theorem ne_start_of_decodeSt (h : decodeSt c = .ok i) : i ≠ .start := by
  rintro rfl
  cases encode_of_decodeSt h

/-- What decodes is well formed: an `ST` code because it is the encoding of an instruction, a command word because its
bit 0 is set. -/
theorem wf_of_decode (h : decode w = .ok i) : w.wf = true := by
  cases w with
  | st c =>
    obtain ⟨-, hwf, -⟩ := encode_roundTrip i
    exact encode_of_decodeSt h ▸ hwf
  | ctrl d => exact (decode_ctrl_eq_ok.mp h).1

/-- The well-formed `ST` codes are those with a row in the table. -/
theorem wf_st_eq_isOk (c : StCode) : (Code.st c).wf = (decodeSt c).isOk := by
  revert c
  decide

/-- What is well formed decodes. -/
theorem decode_of_wf (h : w.wf = true) : ∃ i, decode w = .ok i := by
  cases w with
  | st c =>
    rw [wf_st_eq_isOk] at h
    cases hc : decodeSt c with
    | ok i => exact ⟨i, hc⟩
    | error e => simp [hc, Except.isOk, Except.toBool] at h
  | ctrl d => exact ⟨.start, decode_ctrl_eq_ok.mpr ⟨h, rfl⟩⟩

/-- Settles O2: the round trip instruction by instruction, its converse for `ST` codes by `encode_of_decodeSt`, and the
two directions of "well formed exactly when it decodes". -/
theorem decodeEncodeRoundTrip : Obligations.DecodeEncodeRoundTrip :=
  ⟨fun i _ => (encode_roundTrip i).2, fun _ _ => encode_of_decodeSt, fun _ =>
    ⟨decode_of_wf, fun ⟨_, h⟩ => wf_of_decode h⟩⟩

/-- Settles O1: the nine rows by the laws of the codes, the seven codes without a row by evaluation. -/
theorem stCodesDecodeAsTheTable : Obligations.StCodesDecodeAsTheTable :=
  ⟨decodeSt_idle, decodeSt_locate, decodeSt_vlen, decodeSt_vnz, decodeSt_xfields, decodeSt_emit, decodeSt_success,
    decodeSt_abort, decodeSt_reject, by decide⟩

/-! ### The step that performs an encoded operation -/

/-- With nothing queued the step is RRC's turn (log entry 2). -/
theorem step_of_inbox_nil (h : s.inbox = []) : step s = rrcTurn s := by
  simp [step, takeTurn, h]

/-- RRC's turn at a code the table does not have is refused (log entry 8). -/
theorem rrcTurn_of_error {e : DecodeError} (h : decodeSt s.st = .error e) :
    rrcTurn s = .refused (.reservedCode s.st) := by
  simp [rrcTurn, decode, h]

/-- Settles O3: off an empty queue the step is RRC's turn, which decodes `ST`. -/
theorem stepRunsTheOperationStNames : Obligations.StepRunsTheOperationStNames := fun _ hq =>
  ⟨fun _ hi => (step_of_inbox_nil hq).trans (rrcTurn_of_decode hi),
    fun _ he => (step_of_inbox_nil hq).trans (rrcTurn_of_error he)⟩

/-- An `ST` code placed in `ST` is what RRC's turn performs, on the state that holds it. -/
theorem step_placeCode_st (s : State) (h : decodeSt c = .ok i) :
    step (placeCode s (.st c)) = exec i (placeCode s (.st c)) :=
  (step_of_inbox_nil rfl).trans (rrcTurn_of_decode h)

/-- A command word placed as a host write is performed on the state without that write in its queue. -/
theorem step_placeCode_ctrl (s : State) (h : decode (.ctrl d) = .ok i) :
    step (placeCode s (.ctrl d)) = exec i s := by
  have hstep : step (placeCode s (.ctrl d)) = writeReg 0 d s :=
    step_of_inbox_cons (m := .writeReg 0 d) (later := s.inbox) rfl
  rw [hstep]
  simp [writeReg, h]

/-- A table word decodes by way of the encoding it means (log entry 5). -/
theorem decodeTableWord_eq_some {nbits n : Nat} :
    decodeTableWord nbits n = some i ↔ ∃ w, tableCode nbits n = some w ∧ decode w = .ok i := by
  unfold decodeTableWord
  cases tableCode nbits n with
  | none => simp
  | some w => cases hw : decode w <;> simp [hw, Except.toOption]

/-- A table word is placed as the encoding it means. -/
theorem withFetchWord_of_tableCode (s : State) {nbits n : Nat} (h : tableCode nbits n = some w) :
    s.withFetchWord nbits n = placeCode s w := by
  simp [State.withFetchWord, placeTableWord, h]

/-- Settles O5: the word is placed as the encoding it means; a command word names START and no `ST` code does, so the
format decides which of the two clauses speaks. -/
theorem placedTableWordRunsNext : Obligations.PlacedTableWordRunsNext := by
  intro s nbits n i h
  obtain ⟨w, hw, hi⟩ := decodeTableWord_eq_some.mp h
  rw [withFetchWord_of_tableCode s hw]
  cases w with
  | st c => exact ⟨fun hs => absurd hs (ne_start_of_decodeSt hi), fun _ => step_placeCode_st s hi⟩
  | ctrl d =>
    obtain ⟨-, rfl⟩ := decode_ctrl_eq_ok.mp hi
    exact ⟨fun _ => step_placeCode_ctrl s hi, fun hne => absurd rfl hne⟩

/-! ### The codes a step writes -/

/-- An instruction leaves `ST` alone or writes one of the nine codes. -/
theorem exec_st_kept_or_wf (h : exec i s = .next t) : t.st = s.st ∨ (Code.st t.st).wf = true := by
  cases i with
  | start =>
    obtain ⟨-, rfl⟩ | ⟨-, -, rfl⟩ := execStart_next h
    · exact .inl rfl
    · exact .inr rfl
  | locate => obtain ⟨-, ⟨_, -, rfl⟩ | ⟨-, rfl⟩⟩ := execLocate_next h <;> exact .inr rfl
  | vlen => obtain ⟨-, rfl⟩ | ⟨-, rfl⟩ := execVlen_next h <;> exact .inr rfl
  | vnz => obtain ⟨-, rfl⟩ | ⟨-, rfl⟩ := execVnz_next h <;> exact .inr rfl
  | xfields => obtain rfl := execXfields_next h; exact .inr rfl
  | emit => cases h; exact .inr rfl
  | idle | tSuccess | tAbort | tReject => cases h; exact .inl rfl

/-- So does every move: beside RRC's turn, a reset writes IDLE, an accepted START LOCATE, the producer nothing. -/
theorem applyMove_st_kept_or_wf {m : Move} (h : applyMove m s = .next t) :
    t.st = s.st ∨ (Code.st t.st).wf = true := by
  obtain ⟨i, -, hx⟩ | rfl | rfl | ⟨-, -, rfl⟩ | ⟨-, rb', rfl, -⟩ := applyMove_next h
  · exact exec_st_kept_or_wf hx
  · exact .inr rfl
  · exact .inl rfl
  · exact .inr rfl
  · exact .inl rfl

/-- Settles O44: a step is an instruction or a move off the queue. -/
theorem noStepWritesAReservedCode : Obligations.NoStepWritesAReservedCode := by
  intro s t h
  obtain ⟨-, i, -, hx⟩ | ⟨m, later, -, hm⟩ := step_next h
  · exact exec_st_kept_or_wf hx
  · exact applyMove_st_kept_or_wf (s := { s with inbox := later }) hm

/-! ### The event port's word -/

/-- Settles O32: each appended field is a digit of the sum. -/
theorem eventDataWordLayout : Obligations.EventDataWordLayout := by
  intro e
  simp only [eventData, toNat_append_eq_mul_add, BitVec.toNat_ofBool]
  omega

end Sys2Proof.Machine
end

section
/-! SUPPORT. The comparator and the repeat counter: the Hamming distance as a sum, row equality as an equivalence whose
classes share bit-count and repeat count, and the counted rows as a set (`40_comparator_locator.md` section 1). -/

namespace Sys2Proof.Machine

variable {rb : RowBuffer} {a b c i j n : Nat}

/-- Counting over the indexes below `n` is the size of the set counted. -/
theorem countP_range_eq_card (p : Nat → Bool) (n : Nat) :
    (List.range n).countP p = ((Finset.range n).filter fun k => p k = true).card := by
  simp [← Nat.count_eq_card_filter_range, Nat.count]

/-! ### The Hamming distance -/

theorem hd_eq_sum (rb : RowBuffer) (a b n : Nat) :
    hd rb a b n = ∑ k ∈ Finset.range n, (xor (rb.rowBit a k) (rb.rowBit b k)).toNat := by
  rw [hd, countP_range_eq_card, Finset.card_filter]
  refine Finset.sum_congr rfl fun k _ => ?_
  cases rb.rowBit a k <;> cases rb.rowBit b k <;> rfl

theorem hd_le (rb : RowBuffer) (a b n : Nat) : hd rb a b n ≤ n :=
  List.countP_le_length.trans_eq List.length_range

theorem hd_self (rb : RowBuffer) (a n : Nat) : hd rb a a n = 0 := hd_eq_zero_iff.mpr fun _ _ => rfl

theorem hd_comm (rb : RowBuffer) (a b n : Nat) : hd rb a b n = hd rb b a n := by
  simp only [hd_eq_sum, Bool.xor_comm]

/-- The distance of single bits obeys the triangle inequality. -/
theorem toNat_xor_le_add : ∀ x y z : Bool, (xor x z).toNat ≤ (xor x y).toNat + (xor y z).toNat := by decide

theorem hd_triangle (rb : RowBuffer) (a b c n : Nat) : hd rb a c n ≤ hd rb a b n + hd rb b c n := by
  simp only [hd_eq_sum, ← Finset.sum_add_distrib]
  exact Finset.sum_le_sum fun k _ => toNat_xor_le_add _ _ _

/-- No bit at position `n` or later is used. -/
theorem hd_congr {rb' : RowBuffer}
    (h : ∀ k < n, rb'.rowBit a k = rb.rowBit a k ∧ rb'.rowBit b k = rb.rowBit b k) :
    hd rb' a b n = hd rb a b n := by
  refine List.countP_congr fun k hk => ?_
  obtain ⟨ha, hb⟩ := h k (List.mem_range.mp hk)
  rw [ha, hb]

/-- Settles O13: the sum of xors, from which symmetry and the triangle inequality follow bit by bit. -/
theorem hammingDistanceLaws : Obligations.HammingDistanceLaws := fun rb a b c n =>
  ⟨hd_eq_sum rb a b n, hd_le rb a b n, rfl, hd_self rb a n, hd_comm rb a b n, hd_triangle rb a b c n,
    fun _ => hd_congr⟩

/-! ### Row equality -/

theorem rowEq_refl (rb : RowBuffer) (a : Nat) : rowEq rb a a = true := rowEq_iff.mpr ⟨rfl, fun _ _ => rfl⟩

theorem rowEq_symm (h : rowEq rb a b = true) : rowEq rb b a = true := by
  obtain ⟨hbits, hrow⟩ := rowEq_iff.mp h
  exact rowEq_iff.mpr ⟨hbits.symm, fun k hk => (hrow k (hbits ▸ hk)).symm⟩

theorem rowEq_trans (hab : rowEq rb a b = true) (hbc : rowEq rb b c = true) : rowEq rb a c = true := by
  obtain ⟨hbits, hrow⟩ := rowEq_iff.mp hab
  obtain ⟨hbits', hrow'⟩ := rowEq_iff.mp hbc
  exact rowEq_iff.mpr ⟨hbits.trans hbits', fun k hk => (hrow k hk).trans (hrow' k (hbits ▸ hk))⟩

theorem bitsAt_eq_of_rowEq (h : rowEq rb a b = true) : rb.bitsAt a = rb.bitsAt b := (rowEq_iff.mp h).1

/-- Rows of different bit-count are never equal (`40_comparator_locator.md` R91). -/
theorem rowEq_eq_false_of_bitsAt_ne (h : rb.bitsAt a ≠ rb.bitsAt b) : rowEq rb a b = false :=
  Bool.eq_false_iff.mpr fun heq => h (bitsAt_eq_of_rowEq heq)

/-- Two rows of bit-count 0 have no bit to differ in (R91). -/
theorem rowEq_of_bitsAt_eq_zero (ha : rb.bitsAt a = 0) (hb : rb.bitsAt b = 0) : rowEq rb a b = true :=
  rowEq_iff.mpr ⟨ha.trans hb.symm, fun k hk => absurd (ha ▸ hk) k.not_lt_zero⟩

/-- Equal rows are equal to the same rows, so the same rows are counted. -/
theorem reps_eq_of_rowEq (h : rowEq rb a b = true) : reps rb a = reps rb b :=
  List.countP_congr fun _ _ => ⟨rowEq_trans (rowEq_symm h), rowEq_trans h⟩

/-- Settles O14. -/
theorem rowEqualityIsAnEquivalence : Obligations.RowEqualityIsAnEquivalence := fun rb =>
  ⟨rowEq_refl rb, fun _ _ => rowEq_symm, fun _ _ _ => rowEq_trans,
    fun _ _ h => ⟨bitsAt_eq_of_rowEq h, reps_eq_of_rowEq h⟩⟩

/-! ### Rows of whole bytes -/

/-- The bits of byte `m` of a row, from its most significant bit (`20_memory.md` R52). -/
theorem rowBit_of_byte (rb : RowBuffer) (r m : Nat) (hj : j < 8) :
    rb.rowBit r (8 * m + j) = (rb.byteAt r m).getLsbD (7 - j) := by
  rw [RowBuffer.rowBit, show (8 * m + j) / 8 = m by omega, show (8 * m + j) % 8 = j by omega]

theorem byteAt_eq_iff_rowBit {m : Nat} :
    rb.byteAt a m = rb.byteAt b m ↔ ∀ j < 8, rb.rowBit a (8 * m + j) = rb.rowBit b (8 * m + j) := by
  constructor
  · intro h j hj
    rw [rowBit_of_byte rb a m hj, rowBit_of_byte rb b m hj, h]
  · refine fun h => BitVec.eq_of_getLsbD_eq fun p hp => ?_
    have hbit := h (7 - p) (by omega)
    rwa [rowBit_of_byte rb a m (by omega), rowBit_of_byte rb b m (by omega), show 7 - (7 - p) = p by omega] at hbit

/-- Rows of `m` whole bytes are equal exactly when these bytes are. -/
theorem rowEq_iff_byteAt {m : Nat} (ha : rb.bitsAt a = 8 * m) (hb : rb.bitsAt b = 8 * m) :
    rowEq rb a b = true ↔ ∀ l < m, rb.byteAt a l = rb.byteAt b l := by
  rw [rowEq_iff, ha, hb]
  constructor
  · rintro ⟨-, hrow⟩ l hl
    exact byteAt_eq_iff_rowBit.mpr fun j hj => hrow _ (by omega)
  · refine fun h => ⟨rfl, fun k hk => ?_⟩
    have hbit := byteAt_eq_iff_rowBit.mp (h (k / 8) (by omega)) (k % 8) (by omega)
    rwa [Nat.div_add_mod] at hbit

/-- Settles O15: 24 bits are three whole bytes. -/
theorem frameEqualityIsBytesZeroToTwo : Obligations.FrameEqualityIsBytesZeroToTwo := by
  refine fun rb a b => ⟨fun ha hb => ?frame, rowEq_eq_false_of_bitsAt_ne, rowEq_of_bitsAt_eq_zero⟩
  rw [rowEq_iff_byteAt (m := 3) ha hb]
  constructor
  · exact fun h => ⟨h 0 (by decide), h 1 (by decide), h 2 (by decide)⟩
  · rintro ⟨h0, h1, h2⟩ l hl
    interval_cases l <;> assumption

/-! ### The repeat count -/

theorem reps_eq_card (rb : RowBuffer) (i : Nat) :
    reps rb i = ((Finset.range rb.n).filter fun j => rowEq rb i j = true).card := countP_range_eq_card _ _

theorem reps_le_n (rb : RowBuffer) (i : Nat) : reps rb i ≤ rb.n := List.countP_le_length.trans_eq List.length_range

/-- A row of the buffer is counted itself. -/
theorem one_le_reps (hi : i < rb.n) : 1 ≤ reps rb i :=
  List.one_le_countP_iff.mpr ⟨i, List.mem_range.mpr hi, rowEq_refl rb i⟩

/-- The rows that equal a row unlike every other are that row. -/
theorem reps_eq_one (hi : i < rb.n) (h : ∀ j < rb.n, j ≠ i → rowEq rb i j = false) : reps rb i = 1 := by
  rw [reps_eq_card, Finset.card_eq_one]
  refine ⟨i, Finset.ext fun j => ?_⟩
  rw [Finset.mem_filter, Finset.mem_range, Finset.mem_singleton]
  constructor
  · rintro ⟨hj, heq⟩
    by_contra hne
    exact Bool.eq_false_iff.mp (h j hj hne) heq
  · rintro rfl
    exact ⟨hi, rowEq_refl rb j⟩

/-- Settles O16. -/
theorem repeatCountCountsTheWholeBuffer : Obligations.RepeatCountCountsTheWholeBuffer := fun rb i =>
  ⟨reps_eq_card rb i, fun hi => ⟨one_le_reps hi, reps_le_n rb i⟩, reps_eq_one⟩

/-- Distinct rows equal to row `i` are each counted. -/
theorem length_le_reps {rows : List Nat} (hnodup : rows.Nodup)
    (hrows : ∀ j ∈ rows, j < rb.n ∧ rowEq rb i j = true) : rows.length ≤ reps rb i := by
  rw [reps, List.countP_eq_length_filter]
  refine (hnodup.subperm fun j hj => ?_).length_le
  obtain ⟨hn, heq⟩ := hrows j hj
  exact List.mem_filter.mpr ⟨List.mem_range.mpr hn, heq⟩

/-- Rows of different classes are counted apart: a row equal to `i` is not equal to `j`. -/
theorem reps_add_reps_le_n (h : rowEq rb i j = false) : reps rb i + reps rb j ≤ rb.n := by
  have hsplit := List.length_eq_countP_add_countP (rowEq rb j) (l := List.range rb.n)
  have hle : reps rb i ≤ (List.range rb.n).countP fun k => decide ¬rowEq rb j k = true := by
    refine List.countP_mono_left fun k _ hik => decide_eq_true fun hjk => ?_
    exact Bool.eq_false_iff.mp h (rowEq_trans hik (rowEq_symm hjk))
  rw [List.length_range] at hsplit
  change rb.n = reps rb j + _ at hsplit
  omega

end Sys2Proof.Machine
end

section
/-! SUPPORT. The locator for general R and L: the first-occurrence law, its forward-only form and its reference loop are
the same function, and its corner cases (`40_comparator_locator.md` R98, R100, R104). -/

namespace Sys2Proof.Machine

variable {rb : RowBuffer} {R L i j : Nat} {hR : 1 ≤ R}

theorem qualifies_eq_false_iff : qualifies rb i R L = false ↔ (rb.bitsAt i = L → reps rb i < R) := by
  rw [Bool.eq_false_iff, ne_eq, qualifies_iff, not_and, not_le]

/-- Rows of a class qualify together. -/
theorem qualifies_of_rowEq (h : rowEq rb i j = true) (hq : qualifies rb i R L = true) : qualifies rb j R L = true := by
  obtain ⟨hbits, hreps⟩ := qualifies_iff.mp hq
  exact qualifies_iff.mpr ⟨(bitsAt_eq_of_rowEq h).symm.trans hbits, reps_eq_of_rowEq h ▸ hreps⟩

/-- A qualifying row before which none qualifies is the first of its class. -/
theorem rowEq_eq_false_of_first (hq : qualifies rb i R L = true) (hmin : ∀ j < i, qualifies rb j R L = false) :
    ∀ j < i, rowEq rb i j = false := fun j hj =>
  Bool.eq_false_iff.mpr fun heq => Bool.eq_false_iff.mp (hmin j hj) (qualifies_of_rowEq heq hq)

/-! ### The forward-only locator -/

theorem repsFwd_le_reps (rb : RowBuffer) (i : Nat) : repsFwd rb i ≤ reps rb i :=
  List.countP_mono_left fun _ _ h => (Bool.and_eq_true_iff.mp h).2

/-- Where no earlier row is equal, all the counted rows lie ahead. -/
theorem repsFwd_eq_reps (h : ∀ j < i, rowEq rb i j = false) : repsFwd rb i = reps rb i := by
  refine List.countP_congr fun j _ => ?_
  rw [Bool.and_eq_true_iff, decide_eq_true_iff, and_iff_right_iff_imp]
  intro heq
  by_contra hlt
  exact Bool.eq_false_iff.mp (h j (not_le.mp hlt)) heq

/-- The forward-only locator finds exactly the smallest index of a row with the length and enough repeats ahead. -/
theorem locateFwd_eq_some : locateFwd rb R L = some i ↔
    i < rb.n ∧ (rb.bitsAt i = L ∧ R ≤ repsFwd rb i) ∧ ∀ j < i, ¬(rb.bitsAt j = L ∧ R ≤ repsFwd rb j) := by
  rw [locateFwd, find_range_eq_some]
  simp [lengthOk, Config.lenMode, vote]

theorem locateFwd_eq_none :
    locateFwd rb R L = none ↔ ∀ i < rb.n, ¬(rb.bitsAt i = L ∧ R ≤ repsFwd rb i) := by
  simp [locateFwd, lengthOk, Config.lenMode, vote]

/-- A row that does not qualify has no more repeats ahead than in the whole buffer. -/
theorem not_forward_of_not_qualifies (h : qualifies rb i R L = false) :
    ¬(rb.bitsAt i = L ∧ R ≤ repsFwd rb i) := fun ⟨hbits, hfwd⟩ =>
  (qualifies_eq_false_iff.mp h hbits).not_ge (hfwd.trans (repsFwd_le_reps rb i))

theorem locateFwd_eq_locate (rb : RowBuffer) (R : Nat) (hR : 1 ≤ R) (L : Nat) :
    locateFwd rb R L = locate rb R hR L := by
  cases h : locate rb R hR L with
  | none => exact locateFwd_eq_none.mpr fun i hi => not_forward_of_not_qualifies (locate_eq_none.mp h i hi)
  | some i =>
    obtain ⟨hi, hq, hmin⟩ := locate_eq_some.mp h
    have hfwd := repsFwd_eq_reps (rowEq_eq_false_of_first hq hmin)
    exact locateFwd_eq_some.mpr
      ⟨hi, hfwd.symm ▸ qualifies_iff.mp hq, fun j hj => not_forward_of_not_qualifies (hmin j hj)⟩

/-- Settles O17: the located row is the first of its class, so its forward count is its count. -/
theorem firstOccurrenceLaw : Obligations.FirstOccurrenceLaw := by
  refine fun rb R hR L => ⟨fun i0 h => ?first, locateFwd_eq_locate rb R hR L⟩
  obtain ⟨-, hq, hmin⟩ := locate_eq_some.mp h
  have hfirst := rowEq_eq_false_of_first hq hmin
  exact ⟨hfirst, repsFwd_eq_reps hfirst⟩

/-! ### The reference algorithm -/

/-- The inner loop adds to `CNT` the equal rows among the `fuel` rows from `J` on. -/
theorem countLoop_eq (rb : RowBuffer) (I fuel J CNT : Nat) :
    countLoop rb I fuel J CNT = CNT + (List.range' J fuel).countP (rowEq rb I) := by
  induction fuel generalizing J CNT with
  | zero => rfl
  | succ fuel ih =>
    rw [countLoop, ih, List.range'_succ, List.countP_cons]
    split <;> omega

/-- Over the whole buffer it counts the repeats. -/
theorem countLoop_eq_reps (rb : RowBuffer) (I : Nat) : countLoop rb I rb.n 0 0 = reps rb I := by
  rw [countLoop_eq, Nat.zero_add, ← List.range_eq_range']
  rfl

/-- One round of the outer loop returns a row that qualifies and passes by one that does not. -/
theorem locateLoop_succ (rb : RowBuffer) (R L fuel I : Nat) :
    locateLoop rb R L (fuel + 1) I = if qualifies rb I R L then some I else locateLoop rb R L fuel (I + 1) := by
  rw [locateLoop, countLoop_eq_reps]
  simp only [qualifies_iff, ge_iff_le, ite_and]

/-- The outer loop searches the `fuel` rows from `I` on. -/
theorem locateLoop_eq (rb : RowBuffer) (R L fuel I : Nat) :
    locateLoop rb R L fuel I = (List.range' I fuel).find? fun i => qualifies rb i R L := by
  induction fuel generalizing I with
  | zero => rfl
  | succ fuel ih =>
    rw [locateLoop_succ, ih, List.range'_succ, List.find?_cons]
    cases qualifies rb I R L <;> rfl

/-- Settles O18: the outer loop from row 0 searches the rows in ascending order. -/
theorem referenceAlgorithmComputesLocate : Obligations.ReferenceAlgorithmComputesLocate := by
  intro rb R hR L
  rw [locateRef, locateLoop_eq, ← List.range_eq_range']
  rfl

/-! ### Corner cases -/

/-- With fewer rows than R no row is repeated often enough (R100 b). -/
theorem locate_eq_none_of_n_lt (h : rb.n < R) : locate rb R hR L = none :=
  locate_eq_none.mpr fun i _ => qualifies_eq_false_iff.mpr fun _ => (reps_le_n rb i).trans_lt h

/-- With R = 1 the length alone decides (R100 c). -/
theorem locate_one (rb : RowBuffer) (L : Nat) :
    locate rb 1 (Nat.le_refl 1) L = (List.range rb.n).find? fun i => rb.bitsAt i == L := by
  refine List.find?_congr fun i hi => Bool.eq_iff_iff.mpr ?_
  rw [qualifies_iff, and_iff_left (one_le_reps (List.mem_range.mp hi)), beq_iff_eq]

/-- All rows of bit-count 0 are repeats of one of them (R100 d). -/
theorem count_bitsAt_zero_le_reps (h : rb.bitsAt i = 0) :
    ((List.range rb.n).filter fun j => rb.bitsAt j == 0).length ≤ reps rb i := by
  rw [← List.countP_eq_length_filter]
  exact List.countP_mono_left fun j _ hj => rowEq_of_bitsAt_eq_zero h (beq_iff_eq.mp hj)

/-- A row of another length does not qualify (R100 f). -/
theorem qualifies_eq_false_of_bitsAt_ne (h : rb.bitsAt i ≠ L) : qualifies rb i R L = false :=
  qualifies_eq_false_iff.mpr fun hbits => absurd hbits h

/-- Where a row qualifies, the locator finds that row or an earlier one. -/
theorem exists_locate_le (hi : i < rb.n) (hq : qualifies rb i R L = true) :
    ∃ i0 ≤ i, locate rb R hR L = some i0 := by
  cases h : locate rb R hR L with
  | none => exact absurd hq (Bool.eq_false_iff.mp (locate_eq_none.mp h i hi))
  | some i0 =>
    obtain ⟨-, -, hmin⟩ := locate_eq_some.mp h
    exact ⟨i0, le_of_not_gt fun hlt => Bool.eq_false_iff.mp (hmin i hlt) hq, rfl⟩

/-- Settles O20: each case is what the counts of R93 say of the qualifying rows, of which the locator takes the first. -/
theorem locatorCornerCases : Obligations.LocatorCornerCases := by
  intro rb R hR L
  refine ⟨fun hn => locate_eq_none_of_n_lt (hn ▸ hR), locate_eq_none_of_n_lt, locate_one rb L, ?zeroBits, ?classes,
    ?firstWins, fun i => qualifies_eq_false_of_bitsAt_ne, ?noneQualifies, ?longer, ?scattered⟩
  case zeroBits =>
    intro i hi hbits hmin hcount
    exact locate_eq_some.mpr ⟨hi, qualifies_iff.mpr ⟨hbits, hcount.trans (count_bitsAt_zero_le_reps hbits)⟩,
      fun j hj => qualifies_eq_false_of_bitsAt_ne (hmin j hj)⟩
  case classes =>
    intro i j _ _ hqi hqj hne
    have hi := (qualifies_iff.mp hqi).2
    have hj := (qualifies_iff.mp hqj).2
    have hsum := reps_add_reps_le_n hne
    omega
  case firstWins =>
    intro i j hij hj hqi _
    have hi : i < rb.n := hij.trans hj
    obtain ⟨i0, hle, h⟩ := exists_locate_le (hR := hR) hi hqi
    obtain ⟨-, hq, hmin⟩ := locate_eq_some.mp h
    exact ⟨⟨i0, hle, h, hq, hmin, rowEq_eq_false_of_first hq hmin⟩,
      fun hfirst => locate_eq_some.mpr ⟨hi, hqi, hfirst⟩⟩
  case noneQualifies =>
    exact fun h => locate_eq_none.mpr fun i hi => qualifies_eq_false_iff.mpr (h i hi)
  case longer =>
    exact fun i j hi hj => rowEq_eq_false_of_bitsAt_ne (hi ▸ hj.ne)
  case scattered =>
    intro i rows hnodup hlen hi hbits hrows
    exact exists_locate_le hi (qualifies_iff.mpr ⟨hbits, hlen.trans (length_le_reps hnodup hrows)⟩)

end Sys2Proof.Machine
end

section
/-! SUPPORT. LOCATE: what its result depends on, which row it writes to `SEL`, and what that row guarantees
(`40_comparator_locator.md` R96, R97, R99). -/

namespace Sys2Proof.Machine

section content

variable {rb rb' : RowBuffer} {i j : Nat} (h : SameContent rb rb')

include h

/-! Buffers of the same content. -/

theorem rowEq_of_sameContent (hi : i < rb.n) (hj : j < rb.n) : rowEq rb i j = rowEq rb' i j := by
  obtain ⟨-, hrows⟩ := h
  obtain ⟨hbi, hi⟩ := hrows i hi
  obtain ⟨hbj, hj⟩ := hrows j hj
  rw [Bool.eq_iff_iff, rowEq_iff, rowEq_iff, ← hbi, ← hbj]
  refine and_congr_right fun hbits => forall₂_congr fun k hk => ?_
  rw [hi k hk, hj k (hbits ▸ hk)]

theorem reps_of_sameContent (hi : i < rb.n) : reps rb i = reps rb' i := by
  rw [reps, reps, ← h.1]
  exact List.countP_congr fun j hj => by rw [rowEq_of_sameContent h hi (List.mem_range.mp hj)]

theorem qualifies_of_sameContent (R L : Nat) (hi : i < rb.n) : qualifies rb i R L = qualifies rb' i R L := by
  obtain ⟨hbits, -⟩ := h.2 i hi
  rw [qualifies, qualifies, hbits, reps_of_sameContent h hi]

theorem locate_of_sameContent (R : Nat) (hR : 1 ≤ R) (L : Nat) : locate rb R hR L = locate rb' R hR L := by
  rw [locate, locate, ← h.1]
  exact List.find?_congr fun i hi => qualifies_of_sameContent h R L (List.mem_range.mp hi)

theorem launchOk_of_sameContent {g : Config.Geometry} (hl : launchOk g rb = true) : launchOk g rb' = true := by
  obtain ⟨hn, hrows⟩ := h
  obtain ⟨hcount, hbits⟩ := launchOk_iff.mp hl
  refine launchOk_iff.mpr ⟨hn ▸ hcount, fun r hr => ?_⟩
  have hr : r < rb.n := hn ▸ hr
  exact (hrows r hr).1 ▸ hbits r hr

end content

/-- Settles O19: buffers of the same content have the same qualifying rows, and LOCATE looks at nothing else. -/
theorem locatorReadsOnlyMeaningfulBits : Obligations.LocatorReadsOnlyMeaningfulBits := by
  refine ⟨fun rb rb' R hR L h => locate_of_sameContent h R hR L, fun s s' t h hgeom _ hx => ?_⟩
  have hsame : locateFrame s.rb = locateFrame s'.rb := locate_of_sameContent h _ _ _
  obtain ⟨hl, hfound⟩ := execLocate_next hx
  have hl' : launchOk s'.geom s'.rb = true := hgeom ▸ launchOk_of_sameContent h hl
  obtain ⟨i, hi, rfl⟩ | ⟨hi, rfl⟩ := hfound <;> rw [hsame] at hi
  · exact ⟨_, execLocate_of_some hl' hi, rfl, rfl, fun _ => ⟨rfl, rfl⟩⟩
  · exact ⟨_, execLocate_of_none hl' hi, rfl, rfl, fun hv => by simp at hv⟩

/-- RRC's locator finds exactly the smallest qualifying row. -/
theorem locateFrame_eq_some_iff_firstQualifying {rb : RowBuffer} {i : Nat} :
    locateFrame rb = some i ↔ FirstQualifying rb i := locate_eq_some

/-- Settles O21: LOCATE writes what its locator answers, found or not. -/
theorem locateSelectsTheFirstQualifyingRow : Obligations.LocateSelectsTheFirstQualifyingRow := by
  intro s hlaunch
  have hl : launchOk s.geom s.rb = true := launchOk_iff.mpr hlaunch
  refine ⟨fun i0 hi => execLocate_of_some hl (locateFrame_eq_some_iff_firstQualifying.mpr hi),
    fun h => execLocate_of_none hl (locateFrame_eq_none.mpr h), ?oneHolds⟩
  cases h : locateFrame s.rb with
  | none => exact .inr (locateFrame_eq_none.mp h)
  | some i => exact .inl ⟨i, locateFrame_eq_some_iff_firstQualifying.mp h⟩

/-- The counted repeats of a 24-bit row, itself among them, are 24-bit rows equal to it. -/
theorem fiveEqualFrames_of_reps {rb : RowBuffer} {i : Nat} (hi : i < rb.n) (hbits : rb.bitsAt i = 24)
    (hreps : 5 ≤ reps rb i) : FiveEqualFrames rb i := by
  refine ⟨(List.range rb.n).filter (rowEq rb i), List.nodup_range.filter _, ?_, ?_, fun j hj => ?_⟩
  · rwa [← List.countP_eq_length_filter]
  · exact List.mem_filter.mpr ⟨List.mem_range.mpr hi, rowEq_refl rb i⟩
  · obtain ⟨hn, heq⟩ := List.mem_filter.mp hj
    exact ⟨List.mem_range.mp hn, heq, (bitsAt_eq_of_rowEq heq).symm.trans hbits⟩

/-- Settles O22: a LOCATE that ends in VLEN found its row, which qualifies. -/
theorem locatedRowIsRepeatedFiveTimes : Obligations.LocatedRowIsRepeatedFiveTimes := by
  intro s t hx hv
  obtain ⟨-, ⟨i, hfound, rfl⟩ | ⟨-, rfl⟩⟩ := execLocate_next hx
  · obtain ⟨hi, ⟨hbits, hreps⟩, -⟩ := locateFrame_eq_some.mp hfound
    exact ⟨hi, hbits, fiveEqualFrames_of_reps hi hbits hreps⟩
  · simp at hv

end Sys2Proof.Machine
end

section
/-! SUPPORT. The validator: VLEN and VNZ over the selected row, the attempt over a located row, and what the fourth byte
decides (`41_validator.md`). -/

namespace Sys2Proof.Machine

variable {rb : RowBuffer} {i : Nat}

/-! ### VLEN and VNZ -/

/-- Settles O23: the two branches of VLEN. -/
theorem vlenPassesExactly24Bits : Obligations.VlenPassesExactly24Bits := fun _ hsel =>
  ⟨execVlen_of_bits_eq hsel, execVlen_of_bits_ne hsel⟩

/-- Settles O24: the locator has already required the bit-count that VLEN checks. -/
theorem vlenFailEdgeIsDead : Obligations.VlenFailEdgeIsDead := by
  intro s hinv hst
  obtain ⟨-, -, hfound⟩ := rowHeld_of_located hinv (.inl hst)
  obtain ⟨-, ⟨hbits, -⟩, -⟩ := locateFrame_eq_some.mp hfound
  exact execVlen_of_bits_eq hinv.sel hbits

/-- A row's payload is zero exactly when its first four bytes are. -/
theorem payload_isZero_iff_byteAt {r : Nat} : (rb.payload r).isZero = true ↔ ∀ k < 4, rb.byteAt r k = 0#8 := by
  rw [payload_isZero_iff]
  constructor
  · rintro ⟨h0, h1, h2, h3⟩ k hk
    interval_cases k <;> assumption
  · exact fun h => ⟨h 0 (by decide), h 1 (by decide), h 2 (by decide), h 3 (by decide)⟩

theorem payload_isZero_eq_false_of_byteAt_ne {r k : Nat} (hk : k < 4) (hne : rb.byteAt r k ≠ 0#8) :
    (rb.payload r).isZero = false :=
  Bool.eq_false_iff.mpr fun hz => hne (payload_isZero_iff_byteAt.mp hz k hk)

/-- Settles O25: the two branches of VNZ. -/
theorem vnzRejectsExactlyAllZero : Obligations.VnzRejectsExactlyAllZero := by
  refine fun s hsel => ⟨fun hzero => ?reject, ?pass⟩
  case reject => exact execVnz_of_isZero hsel (payload_isZero_iff_byteAt.mpr hzero)
  case pass =>
    rintro ⟨k, hk, hne⟩
    exact execVnz_of_not_isZero hsel (payload_isZero_eq_false_of_byteAt_ne hk hne)

/-- Settles O27: every edge of the three writes `ST` alone but the one on which LOCATE finds a row, which leads to
VLEN. -/
theorem failureWritesOnlyTheState : Obligations.FailureWritesOnlyTheState := by
  rintro i s t (rfl | rfl | rfl) hx hfail
  · obtain ⟨-, ⟨i0, -, rfl⟩ | ⟨-, rfl⟩⟩ := execLocate_next hx
    · simp at hfail
    · rfl
  · obtain ⟨-, rfl⟩ | ⟨-, rfl⟩ := execVlen_next hx <;> rfl
  · obtain ⟨-, rfl⟩ | ⟨-, rfl⟩ := execVnz_next hx <;> rfl

/-! ### The fourth byte -/

/-- Over a located row the sanity check alone decides the attempt. -/
theorem attempt_of_located (h : locateFrame rb = some i) :
    attempt rb = if (rb.payload i).isZero then .sanityFail else .success (payloadEvent (rb.payload i)) := by
  obtain ⟨-, ⟨hbits, -⟩, -⟩ := locateFrame_eq_some.mp h
  rw [attempt, h]
  exact if_neg (not_not.mpr hbits)

theorem attempt_of_byteAt_ne {k : Nat} (h : locateFrame rb = some i) (hk : k < 4) (hne : rb.byteAt i k ≠ 0#8) :
    attempt rb = .success (payloadEvent (rb.payload i)) := by
  rw [attempt_of_located h, payload_isZero_eq_false_of_byteAt_ne hk hne, if_neg Bool.false_ne_true]

/-- The event reads bytes 0 to 2 alone (`41_validator.md` R113 b). -/
theorem payloadEvent_of_zero {p : Payload} (h0 : p.b0 = 0#8) (h1 : p.b1 = 0#8) (h2 : p.b2 = 0#8) :
    payloadEvent p = ⟨"Roboguard", 0#16, false, false, true⟩ := by
  rw [payloadEvent, h0, h1, h2]
  decide

section fourthByte

variable (h : rb.Wf) (r : Nat) (v : Byte)

include h

/-- A 24-bit row has byte 3 beyond its bits, and only 24-bit rows can equal it. -/
theorem rowEq_setByte_three {j : Nat} (hi : rb.bitsAt i = 24) : rowEq (rb.setByte r 3 v) i j = rowEq rb i j := by
  by_cases hj : rb.bitsAt j = 24
  · rw [Bool.eq_iff_iff, rowEq_iff_byteAt (rb := rb.setByte r 3 v) (m := 3) hi hj, rowEq_iff_byteAt (m := 3) hi hj]
    refine forall₂_congr fun k hk => ?_
    have hbyte (q : Nat) : (rb.setByte r 3 v).byteAt q k = rb.byteAt q k :=
      RowBuffer.byteAt_setByte_of_ne h v fun hq => hk.ne hq.2
    rw [hbyte, hbyte]
  · have hne : rb.bitsAt i ≠ rb.bitsAt j := hi ▸ Ne.symm hj
    rw [rowEq_eq_false_of_bitsAt_ne hne, rowEq_eq_false_of_bitsAt_ne (rb := rb.setByte r 3 v) hne]

theorem qualifies_setByte_three (R : Nat) : qualifies (rb.setByte r 3 v) i R 24 = qualifies rb i R 24 := by
  rw [Bool.eq_iff_iff, qualifies_iff, qualifies_iff, RowBuffer.bitsAt_setByte]
  refine and_congr_right fun hi => ?_
  rw [reps, reps, setByte_n, funext fun j => rowEq_setByte_three h r v hi]

/-- No byte 3 has a say in which row is located. -/
theorem locateFrame_setByte_three : locateFrame (rb.setByte r 3 v) = locateFrame rb :=
  List.find?_congr fun _ _ => qualifies_setByte_three h r v _

end fourthByte

/-- Settles O26: over a located row the payload's zero test decides, and the locator never reads byte 3. -/
theorem fourthByteDecidesOnlyTheAllZeroCorner : Obligations.FourthByteDecidesOnlyTheAllZeroCorner := by
  intro rb i hloc
  refine ⟨fun hne => ?nonzero, fun h0 h1 h2 => ⟨fun h3 => ?allZero, fun h3 => ?byteThree⟩, ?first,
    fun hwf r v => (locateFrame_setByte_three hwf r v).trans hloc⟩
  case nonzero =>
    rw [not_and_or, not_and_or] at hne
    obtain hne | hne | hne := hne <;> exact attempt_of_byteAt_ne hloc (by decide) hne
  case allZero =>
    rw [attempt_of_located hloc, if_pos (payload_isZero_iff.mpr ⟨h0, h1, h2, h3⟩)]
  case byteThree =>
    rw [attempt_of_byteAt_ne hloc (by decide) h3, payloadEvent_of_zero h0 h1 h2]
  case first =>
    obtain ⟨-, hqual, hmin⟩ := locate_eq_some.mp hloc
    exact rowEq_eq_false_of_first hqual hmin

end Sys2Proof.Machine
end

section
/-! SUPPORT. The extractor: the fields of the event as bits of the payload, and what XFIELDS writes over any payload
(`42_extractor.md`). -/

namespace Sys2Proof.Machine

/-! ### The fields as bits -/

/-- Masking with a single bit tests that bit. -/
theorem and_twoPow_beq_zero {w : Nat} (x : BitVec w) {k : Nat} (hk : k < w) :
    (x &&& BitVec.twoPow w k == 0#w) = !x.getLsbD k := by
  have hbit : BitVec.twoPow w k ≠ 0#w := fun h => by
    simpa [hk] using congrArg (BitVec.getLsbD · k) h
  rw [BitVec.and_twoPow]
  cases x.getLsbD k with
  | false => simp
  | true => simpa using hbit

theorem and_twoPow_bne_zero {w : Nat} (x : BitVec w) {k : Nat} (hk : k < w) :
    (x &&& BitVec.twoPow w k != 0#w) = x.getLsbD k := by
  rw [bne, and_twoPow_beq_zero x hk, Bool.not_not]

theorem xid_eq_append (b1 b2 : Byte) : xid b1 b2 = b1 ++ b2 :=
  BitVec.setWidth_append_eq_shiftLeft_setWidth_or.symm.trans (BitVec.setWidth_eq _)

theorem xtamper_eq_getLsbD (b0 : Byte) : xtamper b0 = b0.getLsbD 7 :=
  and_twoPow_bne_zero b0 (k := 7) (by decide)

theorem xbatt_eq_not_getLsbD (b0 : Byte) : xbatt b0 = !b0.getLsbD 6 :=
  and_twoPow_beq_zero b0 (k := 6) (by decide)

theorem xalarm_eq_getLsbD (b0 : Byte) : xalarm b0 = b0.getLsbD 5 :=
  and_twoPow_bne_zero b0 (k := 5) (by decide)

theorem xid_toNat (b1 b2 : Byte) : (xid b1 b2).toNat = b1.toNat * 256 + b2.toNat := by
  rw [xid_eq_append]
  exact toNat_append_eq_mul_add b1 b2

/-- Settles O28: `xid` appends the bytes, and each flag's mask is a single bit. -/
theorem fieldFormulas : Obligations.FieldFormulas := fun b0 b1 b2 =>
  ⟨xid_toNat b1 b2, xid_eq_append b1 b2, xtamper_eq_getLsbD b0, xbatt_eq_not_getLsbD b0, xalarm_eq_getLsbD b0⟩

/-- Settles O29. -/
theorem xfieldsWritesTheFourFields : Obligations.XfieldsWritesTheFourFields := by
  intro s hsel
  rw [← xid_eq_append, ← xtamper_eq_getLsbD, ← xalarm_eq_getLsbD, ← xbatt_eq_not_getLsbD]
  exact execXfields_of_sel_lt hsel

/-! ### The bits the extractor reads -/

/-- The flag bits of the status byte survive the mask that clears bits 4:0. -/
theorem getLsbD_eq_of_and_0xE0_eq {x y : Byte} (h : x &&& 0xE0#8 = y &&& 0xE0#8) :
    x.getLsbD 7 = y.getLsbD 7 ∧ x.getLsbD 6 = y.getLsbD 6 ∧ x.getLsbD 5 = y.getLsbD 5 := by
  have hbit (k : Nat) : (x &&& 0xE0#8).getLsbD k = (y &&& 0xE0#8).getLsbD k := congrArg (BitVec.getLsbD · k) h
  exact ⟨by simpa using hbit 7, by simpa using hbit 6, by simpa using hbit 5⟩

/-- Bits 4:0 of byte 0 and byte 3 have no say in the event (`42_extractor.md` R126). -/
theorem payloadEvent_eq_of_read_bits {p q : Payload} (h0 : p.b0 &&& 0xE0#8 = q.b0 &&& 0xE0#8) (h1 : p.b1 = q.b1)
    (h2 : p.b2 = q.b2) : payloadEvent p = payloadEvent q := by
  obtain ⟨h7, h6, h5⟩ := getLsbD_eq_of_and_0xE0_eq h0
  simp only [payloadEvent, xtamper_eq_getLsbD, xbatt_eq_not_getLsbD, xalarm_eq_getLsbD, h1, h2, h7, h6, h5]

section step

variable {s t : State}

theorem exists_xfields_next (h : s.sel < s.geom.nrowsMax) : ∃ t, execXfields s = .next t :=
  ⟨_, execXfields_of_sel_lt h⟩

/-- The bits each event register is written from (`42_extractor.md` R127). -/
theorem xfields_next_bits (h : execXfields s = .next t) :
    t.evId = (s.rb.payload s.sel).b1 ++ (s.rb.payload s.sel).b2 ∧
    t.evTamper = (s.rb.payload s.sel).b0.getLsbD 7 ∧
    t.evBattOk = !(s.rb.payload s.sel).b0.getLsbD 6 ∧
    t.evAlarm = (s.rb.payload s.sel).b0.getLsbD 5 := by
  obtain rfl := execXfields_next h
  exact ⟨xid_eq_append _ _, xtamper_eq_getLsbD _, xbatt_eq_not_getLsbD _, xalarm_eq_getLsbD _⟩

/-- Together the event registers hold the event of the selected payload (R129). -/
theorem eventOf_of_xfields_next (h : execXfields s = .next t) : eventOf t = payloadEvent (s.rb.payload s.sel) := by
  obtain rfl := execXfields_next h
  rfl

end step

/-! ### Every event occurs -/

/-- The status byte that carries the three flags, its ignored bits 0: tamper, the negated battery flag, alarm from
bit 7 down. -/
def statusByte (tamper alarm batteryOk : Bool) : Byte :=
  BitVec.ofBool tamper ++ BitVec.ofBool (!batteryOk) ++ BitVec.ofBool alarm ++ 0#5

/-- A payload that decodes to a given identifier and given flags. -/
def eventPayload (id : Ident) (tamper alarm batteryOk : Bool) : Payload where
  b0 := statusByte tamper alarm batteryOk
  b1 := id.extractLsb' 8 8
  b2 := id.extractLsb' 0 8
  b3 := 0#8

theorem xid_extractLsb' (id : Ident) : xid (id.extractLsb' 8 8) (id.extractLsb' 0 8) = id := by
  rw [xid_eq_append]
  exact (BitVec.extractLsb'_append_extractLsb'_eq_extractLsb' rfl).trans BitVec.extractLsb'_eq_self

theorem flags_statusByte : ∀ t a b : Bool,
    xtamper (statusByte t a b) = t ∧ xalarm (statusByte t a b) = a ∧ xbatt (statusByte t a b) = b := by
  decide

theorem payloadEvent_eventPayload (id : Ident) (t a b : Bool) :
    payloadEvent (eventPayload id t a b) = ⟨Config.model, id, t, a, b⟩ := by
  obtain ⟨ht, ha, hb⟩ := flags_statusByte t a b
  simp only [payloadEvent, eventPayload, xid_extractLsb', ht, ha, hb]

/-- The Row Buffer with the four payload bytes of row `r` written. -/
def RowBuffer.setPayload (rb : RowBuffer) (r : Nat) (p : Payload) : RowBuffer :=
  (((rb.setByte r 0 p.b0).setByte r 1 p.b1).setByte r 2 p.b2).setByte r 3 p.b3

namespace RowBuffer

variable {rb : RowBuffer} (h : rb.Wf) (r : Nat) (p : Payload)

include h

theorem wf_setPayload : (rb.setPayload r p).Wf :=
  wf_setByte (wf_setByte (wf_setByte (wf_setByte h _ _ _) _ _ _) _ _ _) _ _ _

/-- The payload reads as it was written. -/
theorem payload_setPayload_same : (rb.setPayload r p).payload r = p := by
  have h0 := wf_setByte h r 0 p.b0
  have h1 := wf_setByte h0 r 1 p.b1
  have h2 := wf_setByte h1 r 2 p.b2
  simp [payload, setPayload, byteAt_setByte_same h, byteAt_setByte_same h0, byteAt_setByte_same h1,
    byteAt_setByte_same h2, byteAt_setByte_of_ne h0, byteAt_setByte_of_ne h1, byteAt_setByte_of_ne h2]

end RowBuffer

/-- Settles O30: the registers XFIELDS writes are bits of the selected payload (`xfields_next_bits`) and together its
event; every event is that of a payload, which the selected row can hold. -/
theorem eventDependsOnItsOwnBitsOnly : Obligations.EventDependsOnItsOwnBitsOnly := by
  refine ⟨?ownBits, fun s hsel => exists_xfields_next hsel, fun s hwf hsel id t a b => ?everyEvent,
    fun p q => payloadEvent_eq_of_read_bits⟩
  case ownBits =>
    intro s s' t t' hx hx' p q
    obtain ⟨hid, htamper, hbatt, halarm⟩ := xfields_next_bits hx
    obtain ⟨hid', htamper', hbatt', halarm'⟩ := xfields_next_bits hx'
    have he : eventOf t = payloadEvent p := eventOf_of_xfields_next hx
    have he' : eventOf t' = payloadEvent q := eventOf_of_xfields_next hx'
    refine ⟨fun h1 h2 => by rw [hid, hid', h1, h2], fun h7 => by rw [htamper, htamper', h7],
      fun h6 => by rw [hbatt, hbatt', h6], fun h5 => by rw [halarm, halarm', h5], fun h0 h1 h2 => ?ignored,
      fun h0 h1 h2 => ?zero⟩
    case ignored =>
      exact (Event.mk.inj (he.trans ((payloadEvent_eq_of_read_bits h0 h1 h2).trans he'.symm))).2
    case zero => exact (Event.mk.inj (he.trans (payloadEvent_of_zero h0 h1 h2))).2
  case everyEvent =>
    let rb' := s.rb.setPayload s.sel (eventPayload id t a b)
    obtain ⟨u, hx⟩ := exists_xfields_next (s := { s with rb := rb' }) hsel
    have he : eventOf u = ⟨Config.model, id, t, a, b⟩ := by
      rw [eventOf_of_xfields_next hx, RowBuffer.payload_setPayload_same hwf, payloadEvent_eventPayload]
    exact ⟨rb', u, RowBuffer.wf_setPayload hwf _ _, hx, (Event.mk.inj he).2⟩

end Sys2Proof.Machine
end

section
/-! SUPPORT. The invariant of the sequencer: what each kind of move makes of it (`43_sequencer.md` R147). -/

namespace Sys2Proof.Machine

variable {s t : State} {i : Instr}

/-- The instruction `ST` names finds its stage's facts in place. -/
theorem phaseInv_of_decode (h : Inv s) (hi : decodeSt s.st = .ok i) : PhaseInv i s := by
  obtain ⟨j, hj, hphase⟩ := h.phase
  cases hi.symm.trans hj
  exact hphase

/-- No instruction's stage rests on the queue. -/
theorem inv_with_inbox (h : Inv s) (later : List Move) : Inv { s with inbox := later } := by
  obtain ⟨j, hj, hphase⟩ := h.phase
  exact ⟨h.mem, h.sel, j, hj, by cases j <;> exact hphase⟩

/-- RRC's operation leads from its stage to the next one. -/
theorem inv_exec (h : Inv s) (hi : decodeSt s.st = .ok i) (hx : exec i s = .next t) : Inv t := by
  have hphase := phaseInv_of_decode h hi
  cases i with
  | start => exact absurd rfl (ne_start_of_decodeSt hi)
  | locate =>
    obtain ⟨hfound, -⟩ := hphase
    obtain ⟨hl, ⟨r, hr, rfl⟩ | ⟨-, rfl⟩⟩ := execLocate_next hx
    · exact ⟨h.mem, locateFrame_lt_nrowsMax hl hr, .vlen, decodeSt_vlen, hl, rfl, hr⟩
    · exact ⟨h.mem, h.sel, .tAbort, decodeSt_abort, hfound⟩
  | vlen =>
    obtain ⟨-, ⟨hbits, -⟩, -⟩ := locateFrame_eq_some.mp hphase.2.2
    obtain ⟨-, rfl⟩ | ⟨hne, -⟩ := execVlen_next hx
    · exact ⟨h.mem, h.sel, .vnz, decodeSt_vnz, hphase⟩
    · exact absurd hbits hne
  | vnz =>
    obtain ⟨-, rfl⟩ | ⟨hz, rfl⟩ := execVnz_next hx
    · exact ⟨h.mem, h.sel, .tReject, decodeSt_reject, hphase.2.1⟩
    · exact ⟨h.mem, h.sel, .xfields, decodeSt_xfields, hphase, hz⟩
  | xfields =>
    obtain ⟨hheld, hz⟩ := hphase
    have hevent := eventOf_of_xfields_next hx
    obtain rfl := execXfields_next hx
    exact ⟨h.mem, h.sel, .emit, decodeSt_emit, hheld, hz, hevent⟩
  | emit =>
    obtain ⟨⟨-, hfound, -⟩, -⟩ := hphase
    cases hx
    exact ⟨h.mem, h.sel, .tSuccess, decodeSt_success, hfound, List.getLast?_concat⟩
  | idle | tSuccess | tAbort | tReject => cases hx; exact h

theorem inv_applyReset (h : Inv s) : Inv (applyReset s) :=
  ⟨h.mem, Nat.zero_lt_of_lt h.sel, .idle, decodeSt_idle, rfl⟩

/-- An accepted START leaves what LOCATE rests on. -/
theorem inv_start (h : Inv s) (hl : launchOk s.geom s.rb = true) : Inv { s with found := false, st := stLocate } :=
  ⟨h.mem, h.sel, .locate, decodeSt_locate, rfl, hl⟩

/-- The stages in which the producer writes do not rest on the Row Buffer's contents (`20_memory.md` R67). -/
theorem inv_with_rb (h : Inv s) (hidle : isBusy s.st = false) {rb' : RowBuffer} (hwf : rb'.Wf) :
    Inv { s with rb := rb' } := by
  obtain ⟨j, hj, hphase⟩ := h.phase
  refine ⟨hwf, h.sel, j, hj, ?_⟩
  have hcode := encode_of_decodeSt hj
  cases j with
  | start => exact hphase
  | idle | tSuccess | tAbort | tReject => exact hphase
  | locate | vlen | vnz | xfields | emit =>
    have hst := Code.st.inj hcode
    simp [← hst] at hidle

theorem inv_applyMove {m : Move} (h : Inv s) (hm : applyMove m s = .next t) : Inv t := by
  obtain ⟨i, hi, hx⟩ | rfl | rfl | ⟨-, hl, rfl⟩ | ⟨hidle, rb', rfl, hwf⟩ := applyMove_next hm
  · exact inv_exec h hi hx
  · exact inv_applyReset h
  · exact h
  · exact inv_start h hl
  · exact inv_with_rb h hidle (hwf h.mem)

/-- Settles O41: a step is RRC's operation (`inv_exec`) or a move off the queue (`inv_applyMove`). -/
theorem everyStepKeepsTheInvariant : Obligations.EveryStepKeepsTheInvariant := by
  intro s t h hstep
  obtain ⟨-, i, hi, hx⟩ | ⟨m, later, -, hm⟩ := step_next hstep
  · exact inv_exec h hi hx
  · exact inv_applyMove (inv_with_inbox h later) hm

end Sys2Proof.Machine
end

section
/-! SUPPORT. RRC's own step: the frame of every instruction, the resting states, START, EMIT and its port, and the
transition table (`43_sequencer.md` R141 to R147, R155). -/

namespace Sys2Proof.Machine

variable {s t : State} {i : Instr}

/-- Settles O36: the frame of `exec_frame`, read off through the buffer's accessors. -/
theorem instructionFrame : Obligations.InstructionFrame := by
  intro i s t hx
  obtain ⟨hrb, hgeom, hinbox, hfound, hsel, hevents, hevlog⟩ := exec_frame hx
  refine ⟨by simp [hrb], hrb, hgeom, hinbox, hfound, hsel, hevents, hevlog, ?rests⟩
  case rests => rintro (rfl | rfl | rfl | rfl) <;> cases hx <;> rfl

/-! ### The resting states and START -/

theorem rrcTurn_of_st {c : StCode} (hst : s.st = c) (hi : decodeSt c = .ok i) : rrcTurn s = exec i s :=
  rrcTurn_of_decode (hst ▸ hi)

/-- RRC's turn in a resting state changes nothing (log entry 11). -/
theorem rrcTurn_of_resting (h : Resting s.st) : rrcTurn s = .next s := by
  obtain h | h | h | h := h
  · exact rrcTurn_of_st h decodeSt_idle
  · exact rrcTurn_of_st h decodeSt_success
  · exact rrcTurn_of_st h decodeSt_abort
  · exact rrcTurn_of_st h decodeSt_reject

theorem step_of_resting (hq : s.inbox = []) (h : Resting s.st) : step s = .next s :=
  (step_of_inbox_nil hq).trans (rrcTurn_of_resting h)

/-- Settles O11. -/
theorem restingStatesWait : Obligations.RestingStatesWait := fun _ =>
  ⟨rfl, rfl, rfl, rfl, step_of_resting⟩

/-- START where R194's premises hold, in the spec's own words. -/
theorem execStart_of_resting (h : Resting s.st) (hl : LaunchPremises s) :
    execStart s = .next { s with found := false, st := stLocate } :=
  execStart_of_isResting (isResting_iff.mpr h) (launchOk_iff.mpr hl)

/-- Settles O9: the two branches of START. -/
theorem startBeginsAnAttempt : Obligations.StartBeginsAnAttempt := fun _ =>
  ⟨fun h hl => ⟨_, execStart_of_resting h hl, rfl, rfl, rfl, rfl⟩, fun h => execStart_of_isBusy (isBusy_iff.mpr h)⟩

/-- A write to `CTRL` while busy changes nothing, be it START or no command (`43_sequencer.md` R153). -/
theorem writeReg_ctrl_of_isBusy (data : Nat) (h : isBusy s.st = true) : writeReg 0 data s = .next s := by
  obtain hd | hd := Nat.mod_two_eq_zero_or_one data
  · exact writeReg_ctrl_of_even s hd
  · exact (writeReg_ctrl_of_odd s hd).trans (execStart_of_isBusy h)

/-- Settles O10: the write is off the queue and does nothing. -/
theorem startWhileBusyIsIgnored : Obligations.StartWhileBusyIsIgnored := fun _ data _ hq hbusy =>
  (step_of_inbox_cons hq).trans (writeReg_ctrl_of_isBusy data hbusy)

/-! ### EMIT and the event port -/

/-- Where RRC moves next the step is its turn, off the queue (log entry 2). -/
theorem step_of_rrcMoves (h : rrcMoves s = true) : step s = rrcTurn { s with inbox := s.inbox.tail } := by
  obtain hq | ⟨later, hq⟩ := rrcMoves_iff.mp h
  · rw [step_of_inbox_nil hq, show s.inbox.tail = s.inbox by simp [hq]]
  · rw [step_of_inbox_cons hq, hq]
    rfl

/-- A step of the environment sends no record. -/
theorem evlog_of_not_rrcMoves (h : step s = .next t) (hmoves : rrcMoves s = false) : t.evlog = s.evlog := by
  have hnot := Bool.eq_false_iff.mp hmoves
  rw [Ne, rrcMoves_iff, not_or, not_exists] at hnot
  obtain ⟨hne, hturn⟩ := hnot
  obtain ⟨hq, -⟩ | ⟨m, later, hq, hm⟩ := step_next h
  · exact absurd hq hne
  by_cases hreset : m = .reset
  · subst hreset
    cases hm
    rfl
  · obtain ⟨c, b, rb', rfl, -⟩ := applyMove_next_of_environment hm (fun hm => hturn later (hm ▸ hq)) hreset
    rfl

/-- While the port is valid the coming step is EMIT. -/
theorem step_of_evValid (h : evValid s = true) : step s = exec .emit { s with inbox := s.inbox.tail } := by
  obtain ⟨hst, hmoves⟩ := evValid_iff.mp h
  rw [step_of_rrcMoves (rrcMoves_iff.mpr hmoves)]
  exact rrcTurn_of_st hst decodeSt_emit

/-- Settles O31: EMIT by its definition; a step that appends a record found `ST` at EMIT (`evlogGrowsOnlyByEmit`), and
was RRC's because the environment sends none. -/
theorem emitAppendsTheEvent : Obligations.EmitAppendsTheEvent := by
  refine fun s => ⟨rfl, evValid_iff, fun h => ⟨step_of_evValid h, rfl⟩, fun t hstep =>
    ⟨fun h => ?sent, fun h => ?valid⟩⟩
  case sent =>
    cases (step_of_evValid h).symm.trans hstep
    rfl
  case valid =>
    have hgrows : t.evlog ≠ s.evlog := by simp [h]
    obtain hsame | ⟨hst, -⟩ := evlogGrowsOnlyByEmit s t hstep
    · exact absurd hsame hgrows
    · have hmoves : rrcMoves s = true :=
        Bool.of_not_eq_false fun hmoves => hgrows (evlog_of_not_rrcMoves hstep hmoves)
      exact evValid_iff.mpr ⟨hst, rrcMoves_iff.mp hmoves⟩

/-! ### The transition table -/

/-- The table has a row for every state with one of the nine codes. -/
theorem exists_rrcTransition (hi : decodeSt s.st = .ok i) : ∃ t, RrcTransition s t := by
  obtain ⟨h, -⟩ | ⟨h, -⟩ | ⟨h, -⟩ | ⟨h, -⟩ | ⟨h, -⟩ | ⟨h, -⟩ | ⟨h, -⟩ | ⟨h, -⟩ | ⟨h, -⟩ := decodeSt_cases hi
  · exact ⟨_, .resting (.inl h)⟩
  · cases hloc : locateFrame s.rb with
    | none => exact ⟨_, .notFound h (locateFrame_eq_none.mp hloc)⟩
    | some r => exact ⟨_, .found r h (locateFrame_eq_some_iff_firstQualifying.mp hloc)⟩
  · by_cases hl : s.rb.bitsAt s.sel = 24
    · exact ⟨_, .lengthPass h hl⟩
    · exact ⟨_, .lengthFail h hl⟩
  · by_cases hz : ∀ k < 4, s.rb.byteAt s.sel k = 0#8
    · exact ⟨_, .allZero h hz⟩
    · push Not at hz
      exact ⟨_, .nonZero h hz⟩
  · exact ⟨_, .fields h⟩
  · exact ⟨_, .emitted h⟩
  · exact ⟨_, .resting (.inr (.inl h))⟩
  · exact ⟨_, .resting (.inr (.inr (.inl h)))⟩
  · exact ⟨_, .resting (.inr (.inr (.inr h)))⟩

/-- In the invariant a row of the table is what RRC's turn does. -/
theorem rrcTurn_of_rrcTransition (h : Inv s) (ht : RrcTransition s t) : rrcTurn s = .next t := by
  cases ht with
  | resting hst => exact rrcTurn_of_resting hst
  | found r hst hq =>
    have hi : decodeSt s.st = .ok .locate := hst ▸ decodeSt_locate
    have hl := (phaseInv_of_decode h hi).2
    exact (rrcTurn_of_decode hi).trans (execLocate_of_some hl (locateFrame_eq_some_iff_firstQualifying.mpr hq))
  | notFound hst hq =>
    have hi : decodeSt s.st = .ok .locate := hst ▸ decodeSt_locate
    have hl := (phaseInv_of_decode h hi).2
    exact (rrcTurn_of_decode hi).trans (execLocate_of_none hl (locateFrame_eq_none.mpr hq))
  | lengthPass hst hl => exact (rrcTurn_of_st hst decodeSt_vlen).trans (execVlen_of_bits_eq h.sel hl)
  | lengthFail hst hl => exact (rrcTurn_of_st hst decodeSt_vlen).trans (execVlen_of_bits_ne h.sel hl)
  | nonZero hst hz =>
    obtain ⟨-, hpass⟩ := vnzRejectsExactlyAllZero s h.sel
    exact (rrcTurn_of_st hst decodeSt_vnz).trans (hpass hz)
  | allZero hst hz =>
    exact (rrcTurn_of_st hst decodeSt_vnz).trans (execVnz_of_isZero h.sel (payload_isZero_iff_byteAt.mpr hz))
  | fields hst => exact (rrcTurn_of_st hst decodeSt_xfields).trans (xfieldsWritesTheFourFields s h.sel)
  | emitted hst => exact rrcTurn_of_st hst decodeSt_emit

/-- Settles O45: the table has a row (`exists_rrcTransition`), and every row it has is the one answer of the step. -/
theorem stepIsTheTransitionTable : Obligations.StepIsTheTransitionTable := by
  intro s hinv hq
  have hstep {t} (ht : RrcTransition s t) : step s = .next t :=
    (step_of_inbox_nil hq).trans (rrcTurn_of_rrcTransition hinv ht)
  obtain ⟨i, hi, -⟩ := hinv.phase
  obtain ⟨t₀, ht₀⟩ := exists_rrcTransition hi
  refine ⟨fun t => ⟨fun h => ?_, hstep⟩, ⟨t₀, hstep ht₀⟩, fun t t' ht ht' => ?_⟩
  · cases (hstep ht₀).symm.trans h
    exact ht₀
  · exact Host.Outcome.next.inj ((hstep ht).symm.trans (hstep ht'))

end Sys2Proof.Machine
end

section
/-! SUPPORT. The attempt as a run: START and the busy steps, where they end, and what that depends on
(`43_sequencer.md` R148 to R151). -/

namespace Sys2Proof.Machine

variable {s s' t : State} {rb rb' : RowBuffer} {i k n : Nat}

/-! ### Runs -/

/-- A run of `k + 1` steps is a step that answers a state and a run of `k` steps from there. -/
theorem run_succ_eq_next : Host.Core.run Sys2Proof.core (k + 1) s = .next t ↔
    ∃ s', step s = .next s' ∧ Host.Core.run Sys2Proof.core k s' = .next t := by
  constructor
  · intro h
    simp only [Host.Core.run] at h
    split at h
    · exact ⟨_, ‹_›, h⟩
    · cases h
    · cases h
  · rintro ⟨s', hstep, h⟩
    have hstep : Sys2Proof.core.step s = .next s' := hstep
    simp only [Host.Core.run, hstep]
    exact h

/-- A run that answers a state has left the build alone (`10_state.md` R39). -/
theorem run_geom (h : Host.Core.run Sys2Proof.core k s = .next t) : t.geom = s.geom := by
  induction k generalizing s with
  | zero => cases h; rfl
  | succ k ih =>
    obtain ⟨s', hstep, h⟩ := run_succ_eq_next.mp h
    exact (ih h).trans (everyStepKeepsMemoryCanonical s s' hstep).2

/-- RRC, with nothing queued, is busy for exactly `k` steps from `s` and then rests at `t`. -/
inductive BusyRun : State → Nat → State → Prop where
  | rests {s : State} (hq : s.inbox = []) (h : Resting s.st) : BusyRun s 0 s
  | turn {s s' t : State} {k : Nat} (hbusy : isBusy s.st = true) (hstep : step s = .next s') (h : BusyRun s' k t) :
    BusyRun s (k + 1) t

/-- The machine is at `t` after `k` steps and stays there. -/
theorem BusyRun.run_eq (h : BusyRun s k t) (hn : k ≤ n) : Host.Core.run Sys2Proof.core n s = .next t := by
  induction n generalizing s k with
  | zero =>
    obtain rfl := Nat.le_zero.mp hn
    cases h
    rfl
  | succ n ih =>
    cases h with
    | rests hq hr => exact run_succ_eq_next.mpr ⟨_, step_of_resting hq hr, ih (.rests hq hr) n.zero_le⟩
    | turn _ hstep h => exact run_succ_eq_next.mpr ⟨_, hstep, ih h (Nat.le_of_succ_le_succ hn)⟩

/-- Until then it is busy. -/
theorem BusyRun.busy_before (h : BusyRun s k t) {j : Nat} (hj : j < k) :
    ∃ u, Host.Core.run Sys2Proof.core j s = .next u ∧ isBusy u.st = true := by
  induction h generalizing j with
  | rests => exact absurd hj j.not_lt_zero
  | turn hbusy hstep _ ih =>
    cases j with
    | zero => exact ⟨_, rfl, hbusy⟩
    | succ j =>
      obtain ⟨u, hu, hb⟩ := ih (Nat.lt_of_succ_lt_succ hj)
      exact ⟨u, run_succ_eq_next.mpr ⟨_, hstep, hu⟩, hb⟩

/-- A busy turn, by the instruction `ST` names. -/
theorem BusyRun.of_exec {c : StCode} {x : Instr} (hst : s.st = c) (hi : decodeSt c = .ok x) (hc : isBusy c = true)
    (hq : s.inbox = []) (hx : exec x s = .next s') (h : BusyRun s' k t) : BusyRun s (k + 1) t :=
  .turn (hst ▸ hc) ((step_of_inbox_nil hq).trans ((rrcTurn_of_st hst hi).trans hx)) h

/-! ### The outcome of an attempt -/

/-- How many steps RRC is busy (R148). -/
def AttemptOutcome.busySteps : AttemptOutcome → Nat
  | .abortLength => 1
  | .sanityFail => 3
  | .success _ => 5

/-- The terminal state (R144 to R146). -/
def AttemptOutcome.endCode : AttemptOutcome → StCode
  | .abortLength => stAbort
  | .sanityFail => stReject
  | .success _ => stSuccess

/-- The records sent. -/
def AttemptOutcome.sent : AttemptOutcome → List Event
  | .abortLength | .sanityFail => []
  | .success e => [e]

theorem AttemptOutcome.busySteps_le (o : AttemptOutcome) : o.busySteps ≤ 5 := by
  cases o <;> simp [busySteps]

/-- A terminal state is a resting state other than IDLE. -/
theorem AttemptOutcome.endCode_terminal (o : AttemptOutcome) : Resting o.endCode ∧ o.endCode ≠ stIdle := by
  cases o <;> simp [endCode, Resting]

theorem AttemptOutcome.eq_success_of_endCode {o : AttemptOutcome} (h : o.endCode = stSuccess) :
    ∃ e, o = .success e := by
  cases o with
  | success e => exact ⟨e, rfl⟩
  | abortLength | sanityFail => exact absurd h (by decide)

/-- `decode(RB)` over a buffer in which no row is located. -/
theorem attempt_of_not_located (h : locateFrame rb = none) : attempt rb = .abortLength := by
  rw [attempt, h]

theorem attempt_of_isZero (h : locateFrame rb = some i) (hz : (rb.payload i).isZero = true) :
    attempt rb = .sanityFail := by
  rw [attempt_of_located h, if_pos hz]

theorem attempt_of_not_isZero (h : locateFrame rb = some i) (hz : (rb.payload i).isZero = false) :
    attempt rb = .success (payloadEvent (rb.payload i)) := by
  rw [attempt_of_located h, hz, if_neg Bool.false_ne_true]

/-! `AttemptEnds`, outcome by outcome. -/

theorem attemptEnds_of_abortLength (h : attempt s.rb = .abortLength) : AttemptEnds s t ↔
    t.rb = s.rb ∧ t.st = stAbort ∧ t.evlog = s.evlog ∧ t.found = false ∧ t.sel = s.sel := by
  rw [AttemptEnds, h]

theorem attemptEnds_of_sanityFail (h : attempt s.rb = .sanityFail) : AttemptEnds s t ↔
    t.rb = s.rb ∧ t.st = stReject ∧ t.evlog = s.evlog ∧ t.found = true ∧ locateFrame s.rb = some t.sel := by
  rw [AttemptEnds, h]

theorem attemptEnds_of_success {e : Event} (h : attempt s.rb = .success e) : AttemptEnds s t ↔
    t.rb = s.rb ∧ t.st = stSuccess ∧ t.evlog = s.evlog ++ [e] ∧ t.found = true ∧ locateFrame s.rb = some t.sel ∧
    (t.evId, t.evTamper, t.evAlarm, t.evBattOk) = (e.id, e.tamper, e.alarm, e.batteryOk) := by
  rw [AttemptEnds, h]

/-- What an attempt leaves in `ST`, `EVLOG`, `FOUND` and `SEL`, as functions of the Row Buffer and what was there. -/
theorem attemptEnds_writes (h : AttemptEnds s t) :
    t.st = (attempt s.rb).endCode ∧ t.evlog = s.evlog ++ (attempt s.rb).sent ∧
    t.found = (locateFrame s.rb).isSome ∧ t.sel = (locateFrame s.rb).getD s.sel := by
  cases hloc : locateFrame s.rb with
  | none =>
    have ha := attempt_of_not_located hloc
    obtain ⟨-, hst, hlog, hfound, hsel⟩ := (attemptEnds_of_abortLength ha).mp h
    simp [ha, AttemptOutcome.endCode, AttemptOutcome.sent, hst, hlog, hfound, hsel]
  | some r =>
    cases hz : (s.rb.payload r).isZero with
    | true =>
      have ha := attempt_of_isZero hloc hz
      obtain ⟨-, hst, hlog, hfound, hsel⟩ := (attemptEnds_of_sanityFail ha).mp h
      have hr : r = t.sel := Option.some.inj (hloc.symm.trans hsel)
      simp [ha, AttemptOutcome.endCode, AttemptOutcome.sent, hst, hlog, hfound, hr]
    | false =>
      have ha := attempt_of_not_isZero hloc hz
      obtain ⟨-, hst, hlog, hfound, hsel, -⟩ := (attemptEnds_of_success ha).mp h
      have hr : r = t.sel := Option.some.inj (hloc.symm.trans hsel)
      simp [ha, AttemptOutcome.endCode, AttemptOutcome.sent, hst, hlog, hfound, hr]

/-! ### The run of an attempt -/

/-- The state an accepted START leaves once it is off the queue. -/
def begun (s : State) : State := { s with found := false, st := stLocate, inbox := [] }

theorem step_start (h : Resting s.st) (hl : LaunchPremises s) (hq : s.inbox = [.writeReg 0 1]) :
    step s = .next (begun s) := by
  rw [step_of_inbox_cons hq]
  have hodd : 1 % 2 = 1 := rfl
  exact (writeReg_ctrl_of_odd _ hodd).trans (execStart_of_resting (s := { s with inbox := [] }) h hl)

/-- What comes after LOCATE has found row `r` and VLEN has passed it, two busy steps later. -/
theorem busyRun_of_located {r : Nat} (hl : launchOk s.geom s.rb = true) (hloc : locateFrame s.rb = some r)
    (h : BusyRun { begun s with sel := r, found := true, st := stVnz } k t) : BusyRun (begun s) (k + 1 + 1) t := by
  obtain ⟨-, ⟨hbits, -⟩, -⟩ := locateFrame_eq_some.mp hloc
  exact .of_exec rfl decodeSt_locate rfl rfl (execLocate_of_some (s := begun s) hl hloc) <|
    .of_exec rfl decodeSt_vlen rfl rfl (execVlen_of_bits_eq (locateFrame_lt_nrowsMax hl hloc) hbits) h

/-- From LOCATE on, RRC is busy for as many steps as the outcome says and rests where `decode(RB)` says. -/
theorem busyRun_begun (hl : LaunchPremises s) :
    ∃ t, BusyRun (begun s) (attempt s.rb).busySteps t ∧ AttemptEnds s t := by
  have hl : launchOk s.geom s.rb = true := launchOk_iff.mpr hl
  have hrest (o : AttemptOutcome) := o.endCode_terminal.1
  cases hloc : locateFrame s.rb with
  | none =>
    have ha := attempt_of_not_located hloc
    rw [ha]
    exact ⟨_, .of_exec rfl decodeSt_locate rfl rfl (execLocate_of_none (s := begun s) hl hloc) <|
        .rests rfl (hrest .abortLength),
      (attemptEnds_of_abortLength ha).mpr ⟨rfl, rfl, rfl, rfl, rfl⟩⟩
  | some r =>
    have hsel := locateFrame_lt_nrowsMax hl hloc
    cases hz : (s.rb.payload r).isZero with
    | true =>
      have ha := attempt_of_isZero hloc hz
      rw [ha]
      exact ⟨_, busyRun_of_located hl hloc <|
          .of_exec rfl decodeSt_vnz rfl rfl (execVnz_of_isZero hsel hz) <| .rests rfl (hrest .sanityFail),
        (attemptEnds_of_sanityFail ha).mpr ⟨rfl, rfl, rfl, rfl, hloc⟩⟩
    | false =>
      have ha := attempt_of_not_isZero hloc hz
      rw [ha]
      exact ⟨_, busyRun_of_located hl hloc <|
          .of_exec rfl decodeSt_vnz rfl rfl (execVnz_of_not_isZero hsel hz) <|
          .of_exec rfl decodeSt_xfields rfl rfl (execXfields_of_sel_lt hsel) <|
          .of_exec rfl decodeSt_emit rfl rfl rfl <| .rests rfl (hrest (.success (payloadEvent (s.rb.payload r)))),
        (attemptEnds_of_success ha).mpr ⟨rfl, rfl, rfl, rfl, hloc, rfl⟩⟩

/-- Settles O49: START, and the busy steps of `busyRun_begun`, which are at most five. -/
theorem attemptAgreesWithDecode : Obligations.AttemptAgreesWithDecode := by
  intro s hrest hl hq
  obtain ⟨t, hrun, hends⟩ := busyRun_begun hl
  exact ⟨t, run_succ_eq_next.mpr ⟨_, step_start hrest hl hq, hrun.run_eq (AttemptOutcome.busySteps_le _)⟩, hends⟩

/-- Settles O50: `busyRun_begun` counts the steps, and the outcome's terminal state is not IDLE. -/
theorem attemptEndsWithinFiveSteps : Obligations.AttemptEndsWithinFiveSteps := by
  intro s hrest hl hq k
  have hk : k = (attempt s.rb).busySteps := rfl
  obtain ⟨t, hrun, hends⟩ := busyRun_begun hl
  obtain ⟨hst, -⟩ := attemptEnds_writes hends
  have hstart {j : Nat} {u : State} (h : Host.Core.run Sys2Proof.core j (begun s) = .next u) :
      Host.Core.run Sys2Proof.core (1 + j) s = .next u :=
    Nat.add_comm 1 j ▸ run_succ_eq_next.mpr ⟨_, step_start hrest hl hq, h⟩
  refine ⟨⟨t, hstart (hrun.run_eq hk.ge), hst ▸ AttemptOutcome.endCode_terminal _⟩, fun j hj => ?busy⟩
  case busy =>
    obtain ⟨u, hu, hbusy⟩ := hrun.busy_before (hk ▸ hj)
    exact ⟨u, hstart hu, hbusy⟩

/-! ### What an attempt depends on -/

/-- The stored bytes of a legal buffer hold all its meaningful bits. -/
theorem sameContent_of_sameRows (hl : LaunchPremises s) (h : SameRows s.geom s.rb rb') : SameContent s.rb rb' := by
  obtain ⟨hn, hrows⟩ := h
  refine ⟨hn.symm, fun r hr => ?_⟩
  obtain ⟨hbits, hbytes⟩ := hrows r hr
  refine ⟨hbits.symm, fun k hk => ?_⟩
  have hbyte : k / 8 < s.geom.rowBytes := Nat.div_lt_of_lt_mul (hk.trans_le (hl.2 r hr))
  rw [RowBuffer.rowBit, RowBuffer.rowBit, hbytes _ hbyte]

theorem launchPremises_of_sameRows {g : Config.Geometry} {u : State} (h : SameRows g s.rb u.rb)
    (hgeom : u.geom = s.geom) (hl : LaunchPremises s) : LaunchPremises u := by
  obtain ⟨hn, hrows⟩ := h
  rw [LaunchPremises, hgeom, hn]
  exact ⟨hl.1, fun r hr => (hrows r hr).1 ▸ hl.2 r hr⟩

/-- A row's payload is among the stored bytes of every build (`00_scope.md` R8). -/
theorem payload_of_sameRows {g : Config.Geometry} (h : SameRows g rb rb') {r : Nat} (hr : r < rb.n) :
    rb'.payload r = rb.payload r := by
  obtain ⟨-, hbytes⟩ := h.2 r hr
  have hbyte {k : Nat} (hk : k < 4) : rb'.byteAt r k = rb.byteAt r k := hbytes k (hk.trans_le (four_le_rowBytes g))
  rw [RowBuffer.payload, RowBuffer.payload, hbyte (k := 0) (by decide), hbyte (k := 1) (by decide),
    hbyte (k := 2) (by decide), hbyte (k := 3) (by decide)]

/-- Both the located row and `decode(RB)` are functions of the rows. -/
theorem attempt_of_sameRows (hl : LaunchPremises s) (h : SameRows s.geom s.rb rb') :
    locateFrame rb' = locateFrame s.rb ∧ attempt rb' = attempt s.rb := by
  have hloc : locateFrame s.rb = locateFrame rb' := locate_of_sameContent (sameContent_of_sameRows hl h) _ _ _
  refine ⟨hloc.symm, ?_⟩
  cases hfound : locateFrame s.rb with
  | none => rw [attempt_of_not_located hfound, attempt_of_not_located (hloc ▸ hfound)]
  | some r =>
    rw [attempt_of_located hfound, attempt_of_located (hloc ▸ hfound),
      payload_of_sameRows h (locateFrame_eq_some.mp hfound).1]

/-- Six steps have one answer, the one `attemptAgreesWithDecode` gives. -/
theorem attemptEnds_of_run (hrest : Resting s.st) (hl : LaunchPremises s) (hq : s.inbox = [.writeReg 0 1])
    (hrun : Host.Core.run Sys2Proof.core 6 s = .next t) : AttemptEnds s t := by
  obtain ⟨u, hu, hends⟩ := attemptAgreesWithDecode s hrest hl hq
  cases hu.symm.trans hrun
  exact hends

/-- Settles O51: `ST`, `EVLOG`, `FOUND` and `SEL` after an attempt are functions of the located row and `decode(RB)`
(`attemptEnds_writes`), which are functions of the rows (`attempt_of_sameRows`). -/
theorem decodingIsDeterministic : Obligations.DecodingIsDeterministic := by
  refine ⟨fun s s' t t' hrest hrest' hl hl' hsame hq hq' hrun hrun' => ?machines,
    fun s t hrest hl hq hrun rb' hsame => ?again⟩
  case machines =>
    obtain ⟨hst, hlog, hfound, hsel⟩ := attemptEnds_writes (attemptEnds_of_run hrest hl hq hrun)
    obtain ⟨hst', hlog', hfound', hsel'⟩ := attemptEnds_writes (attemptEnds_of_run hrest' hl' hq' hrun')
    obtain ⟨hloc, hatt⟩ := attempt_of_sameRows hl hsame
    rw [hatt] at hst' hlog'
    rw [hloc] at hfound' hsel'
    refine ⟨hatt, hst'.trans hst.symm, hfound'.trans hfound.symm, fun hf => ?_, _, hlog, hlog'⟩
    obtain ⟨r, hr⟩ := Option.isSome_iff_exists.mp (hfound ▸ hf)
    rw [hsel, hsel', hr, Option.getD_some, Option.getD_some]
  case again =>
    have hends := attemptEnds_of_run hrest hl hq hrun
    have hrb : t.rb = s.rb := hends.1
    have hgeom : t.geom = s.geom := run_geom hrun
    obtain ⟨hst, hlog, hfound, hsel⟩ := attemptEnds_writes hends
    rw [hrb, hgeom] at hsame
    obtain ⟨hloc, hatt⟩ := attempt_of_sameRows hl hsame
    have hrest' : Resting t.st := hst ▸ (AttemptOutcome.endCode_terminal _).1
    obtain ⟨u, hrun', hends'⟩ := attemptAgreesWithDecode { t with rb := rb', inbox := [.writeReg 0 1] } hrest'
      (launchPremises_of_sameRows hsame hgeom hl) rfl
    obtain ⟨hst', hlog', hfound', hsel'⟩ := attemptEnds_writes hends'
    rw [show attempt _ = attempt s.rb from hatt] at hst' hlog'
    rw [show locateFrame _ = locateFrame s.rb from hloc] at hfound' hsel'
    refine ⟨u, hrun', hst'.trans hst.symm, ?sel, hfound'.trans hfound.symm, hends'.1, fun hsuccess => ?twice⟩
    case sel =>
      rw [hsel', hsel]
      cases locateFrame s.rb <;> rfl
    case twice =>
      obtain ⟨e, he⟩ := AttemptOutcome.eq_success_of_endCode (hst.symm.trans hsuccess)
      rw [he] at hlog hlog'
      exact ⟨e, hlog, by rw [hlog', hlog]; simp [AttemptOutcome.sent]⟩

/-- Settles O53: a success located a row, which is repeated five times; and a row repeated five times qualifies, so the
locator finds one. -/
theorem repeatThreshold : Obligations.RepeatThreshold := by
  refine ⟨fun s t hrest hl hq hrun hsuccess => ?success, fun s i hl h => ?passes⟩
  case success =>
    obtain ⟨hst, -⟩ := attemptEnds_writes (attemptEnds_of_run hrest hl hq hrun)
    cases hloc : locateFrame s.rb with
    | none =>
      rw [attempt_of_not_located hloc, hsuccess] at hst
      exact absurd hst (by decide)
    | some r =>
      obtain ⟨hr, ⟨hbits, hreps⟩, -⟩ := locateFrame_eq_some.mp hloc
      exact ⟨r, fiveEqualFrames_of_reps hr hbits hreps⟩
  case passes =>
    obtain ⟨rows, hnodup, hfive, hi, hrows⟩ := h
    obtain ⟨hin, -, hbits⟩ := hrows i hi
    have hreps : 5 ≤ reps s.rb i := hfive.trans (length_le_reps hnodup fun j hj => (hrows j hj).imp_right And.left)
    obtain ⟨r, -, hloc⟩ := exists_locate_le (hR := by decide) hin (qualifies_iff.mpr ⟨hbits, hreps⟩)
    exact ⟨_, execLocate_of_some (launchOk_iff.mpr hl) hloc, rfl, rfl⟩

end Sys2Proof.Machine
end

section
/-! SUPPORT. The failures of an attempt: what one leaves of the event registers, which check decides, and what the trace
port reports of it (`60_exceptions.md`). -/

namespace Sys2Proof.Machine

variable {s t u v : State} {rb : RowBuffer} {i k : Nat}

/-! ### The event registers during an attempt -/

/-- An attempt begun in `s` has got to `u`: it still holds the event registers of `s`, or is past XFIELDS, in EMIT or
T_SUCCESS. -/
def EventHeldOrSent (s u : State) : Prop := eventOf u = eventOf s ∨ u.st = stEmit ∨ u.st = stSuccess

/-- With nothing queued RRC goes on from EMIT to T_SUCCESS and waits there. -/
theorem step_st_of_emit_or_success (hq : u.inbox = []) (hst : u.st = stEmit ∨ u.st = stSuccess)
    (h : step u = .next v) : v.st = stSuccess := by
  rw [step_of_inbox_nil hq] at h
  obtain hst | hst := hst
  · cases (rrcTurn_of_st hst decodeSt_emit).symm.trans h
    rfl
  · cases (rrcTurn_of_st hst decodeSt_success).symm.trans h
    exact hst

/-- XFIELDS, which alone writes the event registers, ends in EMIT (`registersHoldUntilWrittenOrReset`). -/
theorem eventHeldOrSent_step (hq : u.inbox = []) (hu : EventHeldOrSent s u) (h : step u = .next v) :
    EventHeldOrSent s v := by
  obtain hev | hst := hu
  · by_cases hx : u.st = stXfields ∧ v.st = stEmit
    · exact .inr (.inl hx.2)
    · obtain ⟨hid, htamper, halarm, hbatt⟩ := (registersHoldUntilWrittenOrReset u v h (by simp [hq])).2 hx
      refine .inl (Eq.trans ?_ hev)
      rw [eventOf, eventOf, hid, htamper, halarm, hbatt]
  · exact .inr (.inr (step_st_of_emit_or_success hq hst h))

/-- RRC's own step queues nothing. -/
theorem step_inbox_nil (hq : u.inbox = []) (h : step u = .next v) : v.inbox = [] := by
  rw [step_of_inbox_nil hq] at h
  obtain ⟨i, -, hx⟩ := rrcTurn_next h
  exact (exec_frame hx).inbox.trans hq

theorem eventHeldOrSent_run (hq : u.inbox = []) (hu : EventHeldOrSent s u)
    (h : Host.Core.run Sys2Proof.core k u = .next t) : EventHeldOrSent s t := by
  induction k generalizing u with
  | zero => cases h; exact hu
  | succ k ih =>
    obtain ⟨v, hstep, h⟩ := run_succ_eq_next.mp h
    exact ih (step_inbox_nil hq hstep) (eventHeldOrSent_step hq hu hstep) h

/-- An attempt that does not end in T_SUCCESS leaves the event registers as they were. -/
theorem eventOf_of_run_of_failed (hrest : Resting s.st) (hl : LaunchPremises s) (hq : s.inbox = [.writeReg 0 1])
    (hrun : Host.Core.run Sys2Proof.core 6 s = .next t) (hfail : t.st = stAbort ∨ t.st = stReject) :
    eventOf t = eventOf s := by
  obtain ⟨u, hstep, hrun⟩ := run_succ_eq_next.mp hrun
  cases (step_start hrest hl hq).symm.trans hstep
  obtain hev | hst | hst := eventHeldOrSent_run (u := begun s) rfl (.inl rfl) hrun
  · exact hev
  · simp [hst] at hfail
  · simp [hst] at hfail

/-- An attempt that fails its sanity check located a row whose payload is zero. -/
theorem isZero_of_attempt_eq_sanityFail (hloc : locateFrame rb = some i) (h : attempt rb = .sanityFail) :
    (rb.payload i).isZero = true := by
  by_contra hz
  rw [attempt_of_not_isZero hloc (Bool.eq_false_iff.mpr hz)] at h
  cases h

/-- Settles O52: the event registers by `eventOf_of_run_of_failed`, the rest by the outcome of `decode(RB)`
(`attemptEnds_of_run`). -/
theorem failedAttemptHoldsTheEventRegisters : Obligations.FailedAttemptHoldsTheEventRegisters := by
  intro s t hrest hl hq hrun hfail
  obtain ⟨-, hid, htamper, halarm, hbatt⟩ := Event.mk.inj (eventOf_of_run_of_failed hrest hl hq hrun hfail)
  refine ⟨hid, htamper, halarm, hbatt, ?_⟩
  have hends := attemptEnds_of_run hrest hl hq hrun
  cases ha : attempt s.rb with
  | abortLength =>
    obtain ⟨-, hst, hlog, hfound, hsel⟩ := (attemptEnds_of_abortLength ha).mp hends
    exact ⟨hlog, fun _ => ⟨hfound, hsel⟩, fun hrej => by simp [hst] at hrej⟩
  | sanityFail =>
    obtain ⟨-, hst, hlog, hfound, hloc⟩ := (attemptEnds_of_sanityFail ha).mp hends
    exact ⟨hlog, fun habort => by simp [hst] at habort,
      fun _ => ⟨hfound, payload_isZero_iff_byteAt.mp (isZero_of_attempt_eq_sanityFail hloc ha)⟩⟩
  | success e =>
    obtain ⟨-, hst, -⟩ := (attemptEnds_of_success ha).mp hends
    simp [hst] at hfail

/-! ### The first failing check -/

/-- Rows of 24 bits whose payloads are zero are repeats of each other: the whole buffer counts. -/
theorem n_le_reps_of_zero_frames (h : ∀ r < rb.n, rb.bitsAt r = 24 ∧ ∀ k < 4, rb.byteAt r k = 0#8) (hi : i < rb.n) :
    rb.n ≤ reps rb i := by
  obtain ⟨hbits, hzero⟩ := h i hi
  rw [← List.length_range (n := rb.n)]
  refine length_le_reps List.nodup_range fun j hj => ?_
  have hj : j < rb.n := List.mem_range.mp hj
  obtain ⟨hbits', hzero'⟩ := h j hj
  refine ⟨hj, (rowEq_iff_byteAt (m := 3) hbits hbits').mpr fun k hk => ?_⟩
  rw [hzero k (by omega), hzero' k (by omega)]

/-- Settles O54: without a 24-bit row that has five repeats no row qualifies, and with four rows none has five; in a
buffer of zero frames every row has all of them as repeats, so with five the locator finds one, and its payload is
zero. -/
theorem firstFailingCheckDecides : Obligations.FirstFailingCheckDecides := by
  refine fun rb => ⟨fun h => ?noRepeats, fun h hn => ?fiveZero, fun _ hn => ?fourZero⟩
  case noRepeats =>
    refine attempt_of_not_located (locateFrame_eq_none.mpr fun i hi => qualifies_eq_false_iff.mpr fun hbits => ?_)
    exact (h i hi).resolve_left (not_not.mpr hbits)
  case fiveZero =>
    have h0 : 0 < rb.n := by omega
    have hq : qualifies rb 0 Config.rMin Config.lFrame = true :=
      qualifies_iff.mpr ⟨(h 0 h0).1, hn.trans (n_le_reps_of_zero_frames h h0)⟩
    obtain ⟨r, -, hloc⟩ := exists_locate_le (hR := by decide) h0 hq
    have hr : r < rb.n := (locateFrame_eq_some.mp hloc).1
    exact attempt_of_isZero hloc (payload_isZero_iff_byteAt.mpr (h r hr).2)
  case fourZero => exact attempt_of_not_located (locate_eq_none_of_n_lt (Nat.lt_succ_of_le hn))

/-! ### The trace port -/

/-- A START that is accepted leaves the resting state it found. -/
theorem traceOf_start (h : execStart s = .next t) :
    traceOf .start s t = if t.st = s.st then none else some .entry := by
  obtain ⟨hbusy, rfl⟩ | ⟨hrest, -, rfl⟩ := execStart_next h
  · rw [traceOf, if_pos hbusy, if_pos rfl]
  · have hne : stLocate ≠ s.st := fun hst => by simp [← hst] at hrest
    rw [traceOf, isBusy_of_isResting hrest, if_neg Bool.false_ne_true, if_neg hne]

/-- VLEN ends in VNZ exactly where the length check passes. -/
theorem traceOf_vlen (h : execVlen s = .next t) :
    traceOf .vlen s t = some (.lengthCheck (s.rb.bitsAt s.sel == 24) (s.rb.bitsAt s.sel)) := by
  obtain ⟨hbits, rfl⟩ | ⟨hbits, rfl⟩ := execVlen_next h <;> simp [traceOf, hbits]

/-- VNZ ends in XFIELDS exactly where the payload is not zero. -/
theorem traceOf_vnz (h : execVnz s = .next t) :
    traceOf .vnz s t = some (.sanityCheck (!(s.rb.payload s.sel).isZero)) := by
  obtain ⟨hz, rfl⟩ | ⟨hz, rfl⟩ := execVnz_next h <;> simp [traceOf, hz]

/-- Settles O55: the reports of START, VLEN and VNZ say which branch was taken; those of LOCATE and XFIELDS are read off
the state they leave. -/
theorem traceReportsTheDecisions : Obligations.TraceReportsTheDecisions := fun _ _ =>
  ⟨traceOf_start, fun _ => by simp [traceOf], traceOf_vlen, traceOf_vnz, fun _ => rfl⟩

end Sys2Proof.Machine
end

section
/-! SUPPORT. Reset as a move of the environment, and the stops of the instructions (`70_reset_and_hazards.md`). -/

namespace Sys2Proof.Machine

variable {s : State} {i : Instr}

/-- A queued reset is taken off the queue and applied, whatever `ST` is (`70_reset_and_hazards.md` R190). -/
theorem step_of_reset_queued {later : List Move} (h : s.inbox = .reset :: later) :
    step s = .next (applyReset { s with inbox := later }) := step_of_inbox_cons h

/-- Settles O8: the state after the step is `applyReset` of the one before, whose fields the laws of reset name. -/
theorem resetMoveInEveryState : Obligations.ResetMoveInEveryState := fun _ _ hq =>
  ⟨_, step_of_reset_queued hq, applyReset_st _, applyReset_found _, applyReset_sel _, applyReset_evId _,
    applyReset_evTamper _, applyReset_evAlarm _, applyReset_evBattOk _, isBusy_idle, rfl, rfl, applyReset_rb _,
    applyReset_evlog _, applyReset_geom _, applyReset_inbox _⟩

/-! ### START and LOCATE: no fault, and the refusals -/

/-- The test START and LOCATE make before they begin, against R194's own words. -/
theorem launchOk_eq_false_iff : launchOk s.geom s.rb = false ↔ ¬ LaunchPremises s :=
  Bool.eq_false_iff.trans (not_congr launchOk_iff)

/-- `30_encoding.md` R79 (c): the reserved codes are those neither busy nor resting. -/
theorem wf_st_eq_false_iff {c : StCode} : (Code.st c).wf = false ↔ isBusy c = false ∧ isResting c = false := by
  revert c
  decide

theorem execStart_ne_fault {f : Fault} : execStart s ≠ .fault f := by
  unfold execStart
  split_ifs <;> simp

theorem execStart_eq_refused {r : Refusal} : execStart s = .refused r ↔
    (r = .launchPremises ∧ ¬ LaunchPremises s ∧ Resting s.st) ∨
    (r = .reservedCode s.st ∧ (Code.st s.st).wf = false) := by
  rw [← launchOk_eq_false_iff, wf_st_eq_false_iff, Resting, ← isResting_iff, execStart]
  cases hrest : isResting s.st with
  | true => cases launchOk s.geom s.rb <;> simp [isBusy_of_isResting hrest, eq_comm (b := r)]
  | false => cases isBusy s.st <;> simp [eq_comm (b := r)]

theorem execLocate_ne_fault {f : Fault} : execLocate s ≠ .fault f := by
  unfold execLocate
  split
  · split <;> simp
  · simp

theorem execLocate_eq_refused {r : Refusal} :
    execLocate s = .refused r ↔ r = .launchPremises ∧ ¬ LaunchPremises s := by
  rw [← launchOk_eq_false_iff, execLocate]
  cases launchOk s.geom s.rb with
  | true => cases locateFrame s.rb <;> simp
  | false => simp [eq_comm (b := r)]

/-! ### VLEN, VNZ and XFIELDS: no refusal, and the fault of a row slot that does not exist -/

section selRow
variable (hi : i = .vlen ∨ i = .vnz ∨ i = .xfields)
include hi

theorem exists_next_of_sel_lt (h : s.sel < s.geom.nrowsMax) : ∃ t, exec i s = .next t := by
  obtain rfl | rfl | rfl := hi
  · by_cases hb : s.rb.bitsAt s.sel = Config.lFrame
    · exact ⟨_, execVlen_of_bits_eq h hb⟩
    · exact ⟨_, execVlen_of_bits_ne h hb⟩
  · cases hz : (s.rb.payload s.sel).isZero with
    | true => exact ⟨_, execVnz_of_isZero h hz⟩
    | false => exact ⟨_, execVnz_of_not_isZero h hz⟩
  · exact exists_xfields_next h

theorem exec_of_sel_ge (h : s.geom.nrowsMax ≤ s.sel) : exec i s = .fault (.noSuchRow s.sel) := by
  obtain rfl | rfl | rfl := hi
  · exact (withSelRow_of_ge h : execVlen s = _)
  · exact (withSelRow_of_ge h : execVnz s = _)
  · exact (withSelRow_of_ge h : execXfields s = _)

theorem exec_ne_refused_of_selRow {r : Refusal} : exec i s ≠ .refused r := by
  rcases Nat.lt_or_ge s.sel s.geom.nrowsMax with hlt | hge
  · obtain ⟨t, ht⟩ := exists_next_of_sel_lt hi hlt
    simp [ht]
  · simp [exec_of_sel_ge hi hge]

theorem exec_eq_fault_of_selRow {e : Fault} :
    exec i s = .fault e ↔ e = .noSuchRow s.sel ∧ s.geom.nrowsMax ≤ s.sel := by
  rcases Nat.lt_or_ge s.sel s.geom.nrowsMax with hlt | hge
  · obtain ⟨t, ht⟩ := exists_next_of_sel_lt hi hlt
    simp [ht, Nat.not_le.mpr hlt]
  · simp [exec_of_sel_ge hi hge, hge, eq_comm]

end selRow

/-! ### The stops of every instruction -/

theorem exec_eq_refused {r : Refusal} : exec i s = .refused r ↔
    (r = .launchPremises ∧ ¬ LaunchPremises s ∧ (i = .locate ∨ (i = .start ∧ Resting s.st))) ∨
    (r = .reservedCode s.st ∧ i = .start ∧ (Code.st s.st).wf = false) := by
  cases i with
  | start => simpa [exec] using execStart_eq_refused
  | locate => simpa [exec] using execLocate_eq_refused
  | vlen | vnz | xfields => simp [exec_ne_refused_of_selRow]
  | idle | emit | tSuccess | tAbort | tReject => exact iff_of_false nofun (by simp)

theorem exec_eq_fault {e : Fault} : exec i s = .fault e ↔
    e = .noSuchRow s.sel ∧ s.geom.nrowsMax ≤ s.sel ∧ (i = .vlen ∨ i = .vnz ∨ i = .xfields) := by
  cases i with
  | start => simpa [exec] using execStart_ne_fault
  | locate => simpa [exec] using execLocate_ne_fault
  | vlen | vnz | xfields => simp [exec_eq_fault_of_selRow]
  | idle | emit | tSuccess | tAbort | tReject => exact iff_of_false nofun (by simp)

/-- Settles O38: START and LOCATE by their tests, VLEN, VNZ and XFIELDS by the row slot `SEL` names; the other
instructions always answer a next state. -/
theorem instructionStopsOnlyAsNamed : Obligations.InstructionStopsOnlyAsNamed := fun _ _ =>
  ⟨fun _ => exec_eq_refused, fun _ => exec_eq_fault⟩

end Sys2Proof.Machine
end
